-- ==== Sys2Proof/Word.lean ====
section
/-! DEFINITION. The word and byte types of the bus (R61: the bus data width is 32 bits; R41: `RNGQ` holds bytes). -/

namespace Sys2Proof

/-- One 32-bit value: a command word, a control or status register, one word of a big register (R61, R90). -/
abbrev Word := BitVec 32

/-- One random byte (R41). -/
abbrev Byte := BitVec 8

end Sys2Proof
end

