-- ==== Sys2Proof/Config.lean ====
section
/-! DEFINITION. What an implementation fixes (R8 to R10: the parameters `OPW`, `BASE`, `FIFO_DEPTH`), the constants of
the document (R11), and the one free value: what the TRNG returns (R42). -/

namespace Sys2Proof

/-- The parameters of one implementation (R8, R9, R10, I17). They are no state (R20): `State.cfg` carries them beside the
state so that a statement about every state is a statement about every implementation, and no step changes them
(notes/assumptions/1.md). -/
structure Params where
  /-- `OPW`: the width in bits of every big register (R8). -/
  opw : Nat
  /-- `BASE`: the bus address of the register window (R9). -/
  base : Nat
  /-- `FIFO_DEPTH`: the capacity of `RNGQ` in 32-bit words (R10). -/
  fifoDepth : Nat
  deriving DecidableEq, Repr

/-- `W = OPW / 32`, the number of words of a big register (R8). -/
def Params.words (p : Params) : Nat := p.opw / 32

/-- The capacity of `RNGQ` in bytes, `4 * FIFO_DEPTH` (R37, R41). -/
def Params.fifoBytes (p : Params) : Nat := 4 * p.fifoDepth

/-- The parameters an implementation may choose: `OPW` a multiple of 32 in 64..4096 (R8), `BASE` a multiple of 0x4000
(R9), `FIFO_DEPTH >= 1` (R10), which no rule bounds from above (notes/assumptions/13.md). -/
def Params.wf (p : Params) : Bool :=
  p.opw % 32 == 0 && decide (64 ≤ p.opw) && decide (p.opw ≤ 4096) && p.base % 0x4000 == 0 && decide (1 ≤ p.fifoDepth)

/-- The parameters of `State.reset`: `OPW = 64` (the width of the vectors of 95_test_vectors.md), `BASE = 0`,
`FIFO_DEPTH = 64` (R10). DESIGN CHOICE for the open `OPW` and `BASE`, unsafe for a claim about `State.reset` alone
(notes/assumptions/1.md): `State.resetWith` is the reset state for any parameters. -/
def Params.default : Params := { opw := 64, base := 0, fifoDepth := 64 }

/-- `E_FIXED`, the public exponent: "e (public exponent, fixed at 65537)" (R11). -/
def eFixed : Nat := 65537

/-- `K_DEFAULT`, the default round count: "round count `k` (default 40)" (R11). -/
def kDefault : BitVec 16 := 40

/-- The TRNG (R42): the raw value of its draw number `i`. A free value: it has no body, so nothing constrains it; a draw
reduces it into its range (R142, R144). The counter `Rng.draws` gives each draw a number of its own
(notes/assumptions/2.md). -/
opaque freeDraw : Nat → Nat

end Sys2Proof
end

