-- ==== Sys2Proof/Syntax.lean ====
section
/-! DEFINITION. The nine commands of the engine (R94, spec/opcode_table.json) with the operand fields each one uses. -/

namespace Sys2Proof

/-- A register field of a command word: four bits, of which bit 3 must be 0 (R91, R95; `WellFormed.lean` checks it). -/
abbrev RegField := BitVec 4

/-- A command. One constructor per row of spec/opcode_table.json; the operands stand in the order of the assembler
syntax, destination first (R101). -/
inductive Instr where
  /-- OPC 0x00, format N (R220). -/
  | nop
  /-- OPC 0x01, format R: `Rd <- Ra ^ Rb mod Rc` (R110). -/
  | modexp (rd ra rb rc : RegField)
  /-- OPC 0x02, format R: `Rd <- Ra^-1 mod Rb` (R115). -/
  | modinv (rd ra rb : RegField)
  /-- OPC 0x03, format R: `Rd <- gcd(Ra, Rb)` (R120). -/
  | gcd (rd ra rb : RegField)
  /-- OPC 0x04, format R: the Miller-Rabin test of `Ra` into `STATUS.RESULT` (R150). -/
  | mrtest (ra : RegField)
  /-- OPC 0x05, format I: a probable prime of `imm` bytes into `Rd` (R156). -/
  | primegen (rd : RegField) (imm : BitVec 16)
  /-- OPC 0x06, format I: a key pair of total bit length `imm` into the key bank (R170). -/
  | keygen (imm : BitVec 16)
  /-- OPC 0x07, format R: `Rd <- Ra ^ KP.E mod KP.N` (R190). -/
  | encrypt (rd ra : RegField)
  /-- OPC 0x08, format R: `Rd <- Ra ^ KP.D mod KP.N` (R195). -/
  | decrypt (rd ra : RegField)
  deriving DecidableEq, Repr

end Sys2Proof
end

