-- ==== Sys2Proof/WellFormed.lean ====
section
/-! DEFINITION. Which commands have a legal encoding: every register field names `R0`..`R7` (R95). Nothing else of a
command can be ill-formed: a 16-bit immediate admits every value (R97), and the fields a command does not use are no part
of `Instr` (R96 is the decoder's). -/

namespace Sys2Proof

/-- A register field selects a register: its value is 0..7, "Bit 3 of every used register field must be 0" (R95). -/
def RegField.wf (r : RegField) : Bool := decide (r.toNat < 8)

/-- Every register field the command uses selects a register (R95). -/
def Instr.wf : Instr → Bool
  | .nop => true
  | .modexp rd ra rb rc => RegField.wf rd && RegField.wf ra && RegField.wf rb && RegField.wf rc
  | .modinv rd ra rb => RegField.wf rd && RegField.wf ra && RegField.wf rb
  | .gcd rd ra rb => RegField.wf rd && RegField.wf ra && RegField.wf rb
  | .mrtest ra => RegField.wf ra
  | .primegen rd _ => RegField.wf rd
  | .keygen _ => true
  | .encrypt rd ra => RegField.wf rd && RegField.wf ra
  | .decrypt rd ra => RegField.wf rd && RegField.wf ra

end Sys2Proof
end

