-- ==== Sys2Proof/Decode.lean ====
section
/-! DEFINITION. The command word: its fields (R91, R92), the opcode table (R94, R100), the decoder, total on every
32-bit word and refusing by name (R99, R100), the encoder (R101) and the assembler's refusals (R101). -/

namespace Sys2Proof

/-! ### Fields (R91, R92) -/

/-- `OPC`, bits 31:24. -/
def fieldOpc (c : Word) : BitVec 8 := c.extractLsb' 24 8
/-- `RD`, bits 23:20. -/
def fieldRd (c : Word) : RegField := c.extractLsb' 20 4
/-- `RA`, bits 19:16. -/
def fieldRa (c : Word) : RegField := c.extractLsb' 16 4
/-- `RB`, bits 15:12. -/
def fieldRb (c : Word) : RegField := c.extractLsb' 12 4
/-- `RC`, bits 11:8. -/
def fieldRc (c : Word) : RegField := c.extractLsb' 8 4
/-- `IMM16`, bits 15:0. -/
def fieldImm (c : Word) : BitVec 16 := c.extractLsb' 0 16

/-! ### The opcode table (R100) -/

/-- One row of the opcode table: the opcode (the row's match is `OPC << 24`), the mask, the top bits of the register
fields the command uses (R95), and the command it stands for. -/
structure Row where
  opc : BitVec 8
  mask : Word
  regTops : Word
  build : Word → Instr

/-- The row's match word: `OPC << 24` (R100). -/
def Row.pat (r : Row) : Word := r.opc.setWidth 32 <<< 24

/-- The word is one of this row: `(c AND mask) == match` (R100). -/
def Row.hits (r : Row) (c : Word) : Bool := c &&& r.mask == r.pat

/-- The bits of the row's unused fields, which must be 0 (R96). -/
def Row.unused (r : Row) : Word := r.mask &&& 0x00FFFFFF &&& ~~~r.regTops

/-- The nine rows, with the masks R100 lists. -/
def rows : List Row :=
  [ ⟨0x00, 0xFFFFFFFF, 0x00000000, fun _ => .nop⟩,
    ⟨0x01, 0xFF8888FF, 0x00888800, fun c => .modexp (fieldRd c) (fieldRa c) (fieldRb c) (fieldRc c)⟩,
    ⟨0x02, 0xFF888FFF, 0x00888000, fun c => .modinv (fieldRd c) (fieldRa c) (fieldRb c)⟩,
    ⟨0x03, 0xFF888FFF, 0x00888000, fun c => .gcd (fieldRd c) (fieldRa c) (fieldRb c)⟩,
    ⟨0x04, 0xFFF8FFFF, 0x00080000, fun c => .mrtest (fieldRa c)⟩,
    ⟨0x05, 0xFF8F0000, 0x00800000, fun c => .primegen (fieldRd c) (fieldImm c)⟩,
    ⟨0x06, 0xFFFF0000, 0x00000000, fun c => .keygen (fieldImm c)⟩,
    ⟨0x07, 0xFF88FFFF, 0x00880000, fun c => .encrypt (fieldRd c) (fieldRa c)⟩,
    ⟨0x08, 0xFF88FFFF, 0x00880000, fun c => .decrypt (fieldRd c) (fieldRa c)⟩ ]

/-! ### The decoder -/

/-- Why a word is no command (R233): "a reserved opcode, a used register field of 8 to 15, or a nonzero unused field". All
three have the one outcome ILLEGAL; the name is the model's, for readers. -/
inductive Illegal where
  | reservedOpcode
  | registerField
  | unusedField
  deriving DecidableEq, Repr

/-- The name of what is wrong with a word no row matches; a nonzero unused field is named before a bad register field
(notes/assumptions/10.md). -/
def whyIllegal (c : Word) : Illegal :=
  match rows.find? (fun r => r.opc == fieldOpc c) with
  | none => .reservedOpcode
  | some r => if c &&& r.unused == 0 then .registerField else .unusedField

/-- `Decode(c)` (R100): the command of the first row whose masked bits match, else ILLEGAL under a name. -/
def decode (c : Word) : Except Illegal Instr :=
  match rows.find? (fun r => r.hits c) with
  | some r => .ok (r.build c)
  | none => .error (whyIllegal c)

/-! ### The encoder (R101) -/

/-- The opcode of a command (R94). -/
def Instr.opc : Instr → BitVec 8
  | .nop => 0x00
  | .modexp _ _ _ _ => 0x01
  | .modinv _ _ _ => 0x02
  | .gcd _ _ _ => 0x03
  | .mrtest _ => 0x04
  | .primegen _ _ => 0x05
  | .keygen _ => 0x06
  | .encrypt _ _ => 0x07
  | .decrypt _ _ => 0x08

/-- A word of format R (R91): `OPC << 24 | rd << 20 | ra << 16 | rb << 12 | rc << 8`, `Z8 = 0`. -/
def formatR (opc : BitVec 8) (rd ra rb rc : RegField) : Word :=
  opc.setWidth 32 <<< 24 ||| rd.setWidth 32 <<< 20 ||| ra.setWidth 32 <<< 16 ||| rb.setWidth 32 <<< 12
    ||| rc.setWidth 32 <<< 8

/-- A word of format I (R92): `OPC << 24 | rd << 20 | imm`, `Z4 = 0`. -/
def formatI (opc : BitVec 8) (rd : RegField) (imm : BitVec 16) : Word :=
  opc.setWidth 32 <<< 24 ||| rd.setWidth 32 <<< 20 ||| imm.setWidth 32

/-- The word of a command, "encoding" column of R101: fields in place, every unused field 0 (R96). -/
def encode (i : Instr) : Word :=
  match i with
  | .nop => formatR i.opc 0 0 0 0
  | .modexp rd ra rb rc => formatR i.opc rd ra rb rc
  | .modinv rd ra rb => formatR i.opc rd ra rb 0
  | .gcd rd ra rb => formatR i.opc rd ra rb 0
  | .mrtest ra => formatR i.opc 0 ra 0 0
  | .primegen rd imm => formatI i.opc rd imm
  | .keygen imm => formatI i.opc 0 imm
  | .encrypt rd ra => formatR i.opc rd ra 0 0
  | .decrypt rd ra => formatR i.opc rd ra 0 0

/-! ### The assembler (R101) -/

/-- A register name `r<n>`: "An assembler refuses a register name outside `r0`..`r7`" (R101). -/
def assembleReg (n : Nat) : Option RegField := if n < 8 then some (BitVec.ofNat 4 n) else none

/-- An immediate: refused "outside 0..65535" (R101). -/
def assembleImm (n : Nat) : Option (BitVec 16) := if n < 65536 then some (BitVec.ofNat 16 n) else none

/-- An assembler line, its mnemonic and the numbers of its operands in the order written (R101); `none` is the assembler's
refusal. -/
def assemble (mnemonic : String) (operands : List Nat) : Option Instr :=
  match mnemonic, operands with
  | "nop", [] => some .nop
  | "modexp", [d, a, b, c] => do return .modexp (← assembleReg d) (← assembleReg a) (← assembleReg b) (← assembleReg c)
  | "modinv", [d, a, b] => do return .modinv (← assembleReg d) (← assembleReg a) (← assembleReg b)
  | "gcd", [d, a, b] => do return .gcd (← assembleReg d) (← assembleReg a) (← assembleReg b)
  | "mrtest", [a] => do return .mrtest (← assembleReg a)
  | "primegen", [d, n] => do return .primegen (← assembleReg d) (← assembleImm n)
  | "keygen", [n] => do return .keygen (← assembleImm n)
  | "encrypt", [d, a] => do return .encrypt (← assembleReg d) (← assembleReg a)
  | "decrypt", [d, a] => do return .decrypt (← assembleReg d) (← assembleReg a)
  | _, _ => none

/-! ### The host's probe -/

/-- The command the decoder reads from the word `w` of `nbits` bits, bit 0 the least significant. Every command is one
32-bit word (R90): bits above `nbits` are 0, and more than 32 bits are no command. -/
def decodeTableWord (nbits w : Nat) : Option Instr :=
  if nbits ≤ 32 then (decode (BitVec.ofNat 32 (w % 2 ^ nbits))).toOption else none

end Sys2Proof
end

