-- ==== Sys2Proof/Machine/State.lean ====
section
/-! DEFINITION. The state of the block (R20), plain data, with the agents' turns still to come (R73, R210) and the last
answer of the bus; the reasons a step can stop; the state after reset (R44). What R20 names stands first in `State`; the
fields that are the model's own stand last and say so. -/

namespace Sys2Proof.Machine

/-! ### Errors of a command (R230, R231) -/

/-- The codes of `STATUS.ERR` (R231). Codes 10 to 15 are reserved and never produced (I11): they are no value here. -/
inductive ErrCode where
  | ok
  | illegal
  | divzero
  | notcoprime
  | domain
  | param
  | exhausted
  | nokey
  | range
  | rngempty
  deriving DecidableEq, Repr

/-- What a raise carries: an error code and its information word, "`raise Err(code, info)`" (R15, R232). -/
structure CmdError where
  code : ErrCode
  info : Word
  deriving DecidableEq, Repr

/-! ### Registers -/

/-- The key bank (R24): the six registers of the KeyPair, each of `OPW` bits. -/
structure KeyBank where
  p : Nat
  q : Nat
  n : Nat
  phi : Nat
  e : Nat
  d : Nat
  deriving DecidableEq, Repr

/-- The random source a command draws from (R141). -/
inductive RngSrc where
  /-- `RNGSRC = 0`, the internal TRNG. -/
  | trng
  /-- `RNGSRC = 1`, the host FIFO `RNGQ`. -/
  | fifo
  deriving DecidableEq, Repr

/-- The stored fields of `CTRL` (R28). Bit 3 (RNGFLUSH) stores nothing and bits 31:4 are reserved: they read 0. -/
structure Ctrl where
  /-- bit 0, IE. -/
  ie : Bool
  /-- bit 1, RNGSRC. -/
  rngsrc : RngSrc
  /-- bit 2, RCHK. -/
  rchk : Bool
  deriving DecidableEq, Repr

/-- The stored fields of `STATUS` (R29). BUSY is `eng` (R38) and KEYVALID is `State.keyValid` (R25): each is stored once.
Bits 31:11 are reserved and read 0. -/
structure Status where
  /-- bit 1, DONE. -/
  done : Bool
  /-- bit 2, RESULT. -/
  result : Bool
  /-- bits 7:4, ERR. -/
  err : ErrCode
  /-- bit 8, OVR. -/
  ovr : Bool
  /-- bit 9, WERR. -/
  werr : Bool
  /-- bit 10, FOVR. -/
  fovr : Bool
  deriving DecidableEq, Repr

/-! ### The engine (R38 to R40) -/

/-- The parameter record `lat = (k, rmax, src, rchk)`, copied at accept (R39). -/
structure Latch where
  /-- The round count, from `MR_ROUNDS.K`. -/
  k : BitVec 16
  /-- The candidate ceiling, from `RETRY_MAX`. -/
  rmax : Word
  /-- The random source, from `CTRL.RNGSRC`. -/
  src : RngSrc
  /-- The range check, from `CTRL.RCHK`. -/
  rchk : Bool
  deriving DecidableEq, Repr

/-- The microstate (R40): empty for every command but KEYGEN; for KEYGEN the phase, with the prime `p` found in phase
`GenP`. In phase `GenP` R40's `p` is unused, so it is stored only in phase `GenQ`. -/
inductive Mic where
  | empty
  | genP
  | genQ (p : Nat)
  deriving DecidableEq, Repr

/-- The engine state: `Idle` or `Busy(c, lat, mic)` (R38). -/
inductive Eng where
  | idle
  | busy (c : Word) (lat : Latch) (mic : Mic)
  deriving DecidableEq, Repr

/-- The random sources: the host FIFO `RNGQ` (R41), front first, and the number of TRNG draws made so far. `draws` is the
model's own (notes/assumptions/2.md): the TRNG is no state (R42), and the counter only gives each draw a free value of its
own. -/
structure Rng where
  queue : List Byte
  draws : Nat
  deriving DecidableEq, Repr

/-! ### What the outside does (R73, R210, R270) -/

/-- One host access on the bus: an address, a width in bytes, and the value of a write (R15, R61, R62). -/
inductive Access where
  | read (addr width : Nat)
  | write (addr width : Nat) (v : Word)
  deriving DecidableEq, Repr

/-- Whose step comes next (R210): the engine's, a host access, or an assertion of `rst`. A list of turns is one
interleaving; "a model admits every interleaving" (R73): the list is any list (notes/assumptions/3.md). -/
inductive Turn where
  | engine
  | host (a : Access)
  | reset
  deriving DecidableEq, Repr

/-! ### Why a step stops -/

/-- Faults. -/
inductive Fault where
  /-- `BusFault(offset)` (R62, R63, R67): the bus error of a host access inside the window, raised by `busRead` and
  `busWrite`. It is the host's fault, not the block's (R235): a step hands it to the host as the answer of the access and
  the machine goes on with nothing else changed, so no step stops with it. Neither safe nor unsafe: exact
  (notes/assumptions/4.md). -/
  | busFault (offset : Nat)
  /-- A host turn whose address lies outside the window `BASE .. BASE + 0x2FFF`: the access is none of the block's (R60,
  R61). Raised by `hostStep`, which stops the run with it. Safe: the model stops where the platform goes on
  (notes/assumptions/5.md). -/
  | outsideWindow (addr : Nat)
  deriving DecidableEq, Repr

/-- Refusals. -/
inductive Refusal where
  /-- An instruction with no meaning yet, refused in `exec`'s arm by its mnemonic. No arm does: every command of the table
  has its meaning. Safe. -/
  | notModelled (mnemonic : String)
  deriving DecidableEq, Repr

/-- The answer of the bus to a host access. -/
inductive BusResp where
  /-- A read's 32-bit value. -/
  | data (v : Word)
  /-- A write the bus accepted (an ignored write to a read-only register too, R65). -/
  | accepted
  /-- A bus error: no data and no effect (R62, R63). -/
  | error (f : Fault)
  deriving DecidableEq, Repr

/-! ### The state -/

/-- The state of the block: the tuple of R20, then the parameters and the model's own fields. -/
structure State where
  /-- `R0`..`R7` (R21): each an unsigned integer in `[0, 2^OPW)`. -/
  regs : Vector Nat 8
  /-- `KP`, the key bank (R24). -/
  key : KeyBank
  /-- `KEYVALID` (R25), read as `STATUS[3]`. -/
  keyValid : Bool
  /-- `CTRL` (R28). -/
  ctrl : Ctrl
  /-- `STATUS` (R29). -/
  status : Status
  /-- `MR_ROUNDS.K` (R31); bits 31:16 of the register are reserved. -/
  mrRounds : BitVec 16
  /-- `RETRY_MAX` (R32). -/
  retryMax : Word
  /-- `ATTEMPTS` (R33). -/
  attempts : Word
  /-- `RESTARTS` (R34). -/
  restarts : Word
  /-- `ERRINFO` (R35). -/
  errinfo : Word
  /-- `RNGQ` (R41), with the model's own count of TRNG draws. -/
  rng : Rng
  /-- `eng` (R38). -/
  eng : Eng
  /-- The parameters of the implementation (R8 to R10); no step changes them. -/
  cfg : Params
  /-- The model's own: the turns still to come, next first (R73). -/
  turns : List Turn
  /-- The model's own: what the bus answered to the last host access, none before the first. -/
  resp : Option BusResp
  deriving DecidableEq, Repr

/-- The state after reset under the parameters `c`: the table of R44. The model's own fields are at the values
notes/assumptions/6.md names. -/
def State.resetWith (c : Params) : State :=
  { regs := Vector.replicate 8 0
    key := ⟨0, 0, 0, 0, 0, 0⟩
    keyValid := false
    ctrl := { ie := false, rngsrc := .trng, rchk := true }
    status := { done := false, result := false, err := .ok, ovr := false, werr := false, fovr := false }
    mrRounds := kDefault
    retryMax := 0
    attempts := 0
    restarts := 0
    errinfo := 0
    rng := { queue := [], draws := 0 }
    eng := .idle
    cfg := c
    turns := []
    resp := none }

/-- The machine right after reset (R44), under `Params.default` (notes/assumptions/1.md). -/
def State.reset : State := State.resetWith Params.default

end Sys2Proof.Machine
end

