-- ==== Sys2Proof/Machine/Arith.lean ====
section
/-! DEFINITION. The integer functions the commands share (R14): lengths, modular exponentiation (R111), the extended
Euclidean inverse (R116). Every function is exact on natural numbers and integers: "No arithmetic in this spec wraps"
(R14). The gcd of R14 and R120 is `Nat.gcd`, with `gcd(a, 0) = a`. -/

namespace Sys2Proof.Machine

/-- `bitlen(v)`: "the number of bits of `v` (`bitlen(0) = 0`)" (R14). -/
def bitlen (v : Nat) : Nat := if v = 0 then 0 else v.log2 + 1

/-- `ByteLen(v) = (bitlen(v) + 7) div 8` (R14). -/
def byteLen (v : Nat) : Nat := (bitlen v + 7) / 8

/-- One turn of R111's loop at bit `i` of the exponent: square, then multiply by the base where the bit is 1. -/
def modExpTurn (t b m i r : Nat) : Nat :=
  if b.testBit i then (r * r % m) * t % m else r * r % m

/-- R111's loop over the bits `i - 1` down to 0 of the exponent `b`. -/
def modExpLoop (t b m : Nat) : Nat → Nat → Nat
  | 0, r => r
  | i + 1, r => modExpLoop t b m i (modExpTurn t b m i r)

/-- `ModExp(a, b, m)` for `m >= 1`: repeated squaring, the reference form of R111. -/
def modExp (a b m : Nat) : Nat := modExpLoop (a % m) b m (bitlen b) (1 % m)

/-- The loop of R116 on `(old_r, r)` and the signed `(old_s, s)`, with fuel for its turns; the answer is `old_s`. -/
def euclidLoop : Nat → Nat → Nat → Int → Int → Int
  | 0, _, _, oldS, _ => oldS
  | fuel + 1, oldR, r, oldS, s =>
    if r = 0 then oldS
    else euclidLoop fuel r (oldR - oldR / r * r) s (oldS - ((oldR / r : Nat) : Int) * s)

/-- `ExtEuclidInverse(a, m)` for `m >= 1` and `gcd(a, m) = 1` (R116). `m + 1` turns suffice, since `r` starts at `m` and
falls at every turn. -/
def modInverse (a m : Nat) : Nat := (euclidLoop (m + 1) a m 1 0 % (m : Int)).toNat

/-- Step 2 of R151: while `d` is even, halve it and count; with fuel for the turns. -/
def oddPartLoop : Nat → Nat → Nat → Nat × Nat
  | 0, d, s => (d, s)
  | fuel + 1, d, s => if d % 2 = 0 then oddPartLoop fuel (d / 2) (s + 1) else (d, s)

/-- `n - 1 = d * 2^s` with `d` odd, for odd `n >= 3` (R151, step 2). `bitlen n` turns suffice: each halves `d`. -/
def oddPart (n : Nat) : Nat × Nat := oddPartLoop (bitlen n) (n - 1) 0

end Sys2Proof.Machine
end

