-- ==== Sys2Proof/Machine/Ops.lean ====
section
/-! DEFINITION. The named operations over the state: the big registers and their words (R21, R66), the queue of random
bytes (R41), accept (R211), commit and completion (R214, R215), taking an error (R216, R236) and what undoes it (R237),
reset (R270). -/

namespace Sys2Proof.Machine

/-! ### Big registers and their words -/

/-- `x[i] <- v` (R15). -/
def State.setReg (s : State) (i : Fin 8) (v : Nat) : State := { s with regs := s.regs.set i v }

/-- Word `j` of a big register's value: bits `[32*j + 31 : 32*j]` (R66, R68). -/
def wordOf (x j : Nat) : Word := BitVec.ofNat 32 (x / 2 ^ (32 * j))

/-- The value `x` with word `j` replaced by `v` (R66). -/
def putWord (x j : Nat) (v : Word) : Nat :=
  x % 2 ^ (32 * j) + v.toNat * 2 ^ (32 * j) + x / 2 ^ (32 * j + 32) * 2 ^ (32 * j + 32)

/-- The low 32 bits of a value, `v[31:0]` (R115, R151). -/
def low32 (v : Nat) : Word := BitVec.ofNat 32 v

/-- "adds 1, saturating at 0xFFFF_FFFF" (R33, R34). -/
def satInc (v : Word) : Word := if v = 0xFFFFFFFF then v else v + 1

/-! ### The queue of random bytes (R41) -/

/-- The four bytes of a word, "`v[31:24]`, `v[23:16]`, `v[15:8]`, `v[7:0]`, in that order" (R41). -/
def bytesOf (v : Word) : List Byte :=
  [v.extractLsb' 24 8, v.extractLsb' 16 8, v.extractLsb' 8 8, v.extractLsb' 0 8]

/-- The value of bytes, first byte most significant (R143). -/
def bigEndian (bs : List Byte) : Nat := bs.foldl (fun acc b => acc * 256 + b.toNat) 0

/-! ### The engine -/

/-- `BUSY`: "`STATUS.BUSY = 1` exactly when `eng` is `Busy`" (R38). -/
def State.busy (s : State) : Bool :=
  match s.eng with
  | .idle => false
  | .busy _ _ _ => true

/-- The record an accept copies from the live registers (R39). -/
def State.liveLatch (s : State) : Latch :=
  { k := s.mrRounds, rmax := s.retryMax, src := s.ctrl.rngsrc, rchk := s.ctrl.rchk }

/-- The record the running command reads (R39). With no command running, which no engine step meets, it is what an accept
would copy (notes/assumptions/7.md). -/
def State.lat (s : State) : Latch :=
  match s.eng with
  | .busy _ lat _ => lat
  | .idle => s.liveLatch

/-- The microstate of the running command (R40), empty when none runs (notes/assumptions/7.md). -/
def State.mic (s : State) : Mic :=
  match s.eng with
  | .busy _ _ mic => mic
  | .idle => .empty

/-- The running command goes on with another microstate (R40, R213). -/
def State.setMic (s : State) (mic : Mic) : State :=
  match s.eng with
  | .busy c lat _ => { s with eng := .busy c lat mic }
  | .idle => s

/-- "`Decode(c)` is KEYGEN" (R211). -/
def isKeygen (c : Word) : Bool :=
  match decode c with
  | .ok (.keygen _) => true
  | _ => false

/-- "`Decode(c)` is PRIMEGEN" (R211). -/
def isPrimegen (c : Word) : Bool :=
  match decode c with
  | .ok (.primegen _ _) => true
  | _ => false

/-- The microstate at accept, `mic0` (R211). -/
def mic0 (c : Word) : Mic := if isKeygen c then .genP else .empty

/-- `Accept(c)` (R211): every word is accepted; the operands are not read. -/
def State.accept (s : State) (c : Word) : State :=
  { s with
    eng := .busy c s.liveLatch (mic0 c)
    status := { s.status with done := false, err := .ok, result := false }
    errinfo := 0
    attempts := if isKeygen c || isPrimegen c then 0 else s.attempts
    restarts := if isKeygen c then 0 else s.restarts }

/-! ### Commit, completion, error (R214 to R216, R236, R237) -/

/-- A command's architectural result: "its `Rd`, or the six key-bank registers and `KEYVALID` for KEYGEN, or
`STATUS.RESULT` for MRTEST" (R214), or nothing for NOP. -/
inductive Commit where
  | nothing
  | reg (i : Fin 8) (v : Nat)
  | keyPair (k : KeyBank)
  | result (b : Bool)
  deriving DecidableEq, Repr

/-- The `res` of a completion: "1 only for MRTEST with outcome true, else 0" (R215). -/
def Commit.res : Commit → Bool
  | .result b => b
  | _ => false

/-- The commit (R214): one step writes the register, or all six key-bank registers and `KEYVALID` (R174). -/
def State.commit (s : State) : Commit → State
  | .reg i v => s.setReg i v
  | .keyPair k => { s with key := k, keyValid := true }
  | .nothing => s
  | .result _ => s

/-- The writes every completion makes: `ERR`, `RESULT`, `ERRINFO`, `DONE <- 1`, `eng <- Idle` (R215). -/
def State.finish (s : State) (code : ErrCode) (res : Bool) (info : Word) : State :=
  { s with
    status := { s.status with err := code, result := res, done := true }
    errinfo := info
    eng := .idle }

/-- Taking an error, the block's one exception (R216, R230, R236): `Complete(code, 0, info)`. Only `STATUS.ERR` and
`ERRINFO` are saved, nothing is committed and control goes nowhere. What undoes it is the host's: the next `State.accept`
clears `DONE`, `ERR` and `ERRINFO`, or a write of 1 clears `DONE` (R237; `State.writeStatus`). -/
def State.raise (s : State) (e : CmdError) : State := s.finish e.code false e.info

/-- `Complete` (R215): an outcome without error commits and reports OK, an error is taken. -/
def State.complete (s : State) : Except CmdError Commit → State
  | .ok c => (s.commit c).finish .ok c.res 0
  | .error e => s.raise e

/-! ### Reset (R270) -/

/-- The reset step: "in one step every piece of state takes the value of" R44. The parameters, the turns to come, the
host's last answer and the count of TRNG draws are no state of the block and stay (notes/assumptions/6.md). -/
def State.rst (s : State) : State :=
  { State.resetWith s.cfg with turns := s.turns, resp := s.resp, rng := { queue := [], draws := s.rng.draws } }

end Sys2Proof.Machine
end

