-- ==== Sys2Proof/Machine/Operands.lean ====
section
/-! DEFINITION. The operand forms: a register operand (R95, R98), a byte length (R97, R156), the length of each of a key's
primes (R172). -/

namespace Sys2Proof.Machine

/-- The register a field selects, by its low three bits (R95, R100: `rd = c[22:20]`; notes/assumptions/11.md).
-/
def regIdx (r : RegField) : Fin 8 := ⟨r.toNat % 8, Nat.mod_lt _ (by decide)⟩

/-- A register operand: "the full `OPW`-bit unsigned value of the named register" (R98). -/
def State.operand (s : State) (r : RegField) : Nat := s.regs[regIdx r]

/-- The immediate: `imm = zext_32(c[15:0])`, unsigned, not scaled (R97). -/
def immValue (imm : BitVec 16) : Nat := imm.toNat

/-- The information word of PARAM: "`IMM16`, zero-extended" (R232). -/
def immWord (imm : BitVec 16) : Word := imm.setWidth 32

/-- KEYGEN's per-prime byte length: `len = (L div 2) div 8` (R171, R172). -/
def primeLen (imm : BitVec 16) : Nat := immValue imm / 2 / 8

end Sys2Proof.Machine
end

