-- ==== Sys2Proof/Machine/Flags.lean ====
section
/-! DEFINITION. The words the control and status registers read as, and what a write of one changes (R27 to R31), with the
interrupt output (R43, R240). The block has no other flags (R45). -/

namespace Sys2Proof.Machine

/-- The number of an error code (R231). -/
def ErrCode.num : ErrCode → BitVec 4
  | .ok => 0
  | .illegal => 1
  | .divzero => 2
  | .notcoprime => 3
  | .domain => 4
  | .param => 5
  | .exhausted => 6
  | .nokey => 7
  | .range => 8
  | .rngempty => 9

/-- `ID` (R27): tag 0x4D52 in bits 31:16, interface version 0x01 in bits 15:8, `W` in bits 7:0. -/
def State.idWord (s : State) : Word := 0x4D520100 ||| (BitVec.ofNat 8 s.cfg.words).setWidth 32

/-- The word with the bit `b` at position `n` and 0 elsewhere. -/
def bitAt (b : Bool) (n : Nat) : Word := (BitVec.ofBool b).setWidth 32 <<< n

/-- The RNGSRC bit: "0 = TRNG, 1 = host FIFO" (R28). -/
def RngSrc.bit : RngSrc → Bool
  | .trng => false
  | .fifo => true

/-- The source an RNGSRC bit selects (R28). -/
def RngSrc.ofBit (b : Bool) : RngSrc := if b then .fifo else .trng

/-- `CTRL` as it reads (R28): RNGFLUSH and the reserved bits are 0. -/
def State.ctrlWord (s : State) : Word := bitAt s.ctrl.ie 0 ||| bitAt s.ctrl.rngsrc.bit 1 ||| bitAt s.ctrl.rchk 2

/-- `STATUS` as it reads (R29): the reserved bits are 0. -/
def State.statusWord (s : State) : Word :=
  bitAt s.busy 0 ||| bitAt s.status.done 1 ||| bitAt s.status.result 2 ||| bitAt s.keyValid 3
    ||| s.status.err.num.setWidth 32 <<< 4
    ||| bitAt s.status.ovr 8 ||| bitAt s.status.werr 9 ||| bitAt s.status.fovr 10

/-- `MR_ROUNDS` as it reads (R31). -/
def State.mrRoundsWord (s : State) : Word := s.mrRounds.setWidth 32

/-- `RNG_LEVEL`: the number of bytes in `RNGQ` (R37). DESIGN CHOICE, unsafe where `4 * FIFO_DEPTH >= 2^32`: R10 sets no upper
bound on `FIFO_DEPTH` and no rule says what the 32-bit register reads for a count that does not fit it; here it reads the
count modulo `2^32` (notes/assumptions/13.md). -/
def State.rngLevelWord (s : State) : Word := BitVec.ofNat 32 s.rng.queue.length

/-- The interrupt output: `irq = CTRL.IE and STATUS.DONE`, combinational (R43, R240). Where it is routed is the
platform's (notes/assumptions/12.md). -/
def State.irq (s : State) : Bool := s.ctrl.ie && s.status.done

/-- A write ignored because `BUSY = 1`: `STATUS.WERR <- 1` (R281). -/
def State.setWerr (s : State) : State := { s with status := { s.status with werr := true } }

/-- A write to `CTRL` (R28): IE, RNGSRC and RCHK are written at any time; RNGFLUSH written as 1 empties `RNGQ` while idle,
and sets WERR without a flush while busy (R281). -/
def State.writeCtrl (s : State) (v : Word) : State :=
  let s' := { s with ctrl := { ie := v.getLsbD 0, rngsrc := RngSrc.ofBit (v.getLsbD 1), rchk := v.getLsbD 2 } }
  if v.getLsbD 3 then
    if s.busy then s'.setWerr else { s' with rng := { s'.rng with queue := [] } }
  else s'

/-- A write to `STATUS` (R29): writing 1 clears DONE, OVR, WERR, FOVR; every other bit is ignored. -/
def State.writeStatus (s : State) (v : Word) : State :=
  { s with
    status :=
      { s.status with
        done := s.status.done && !v.getLsbD 1
        ovr := s.status.ovr && !v.getLsbD 8
        werr := s.status.werr && !v.getLsbD 9
        fovr := s.status.fovr && !v.getLsbD 10 } }

/-- A write to `CMD`: accepted while idle (R211), dropped with `OVR <- 1` while busy (R212). -/
def State.writeCmd (s : State) (c : Word) : State :=
  if s.busy then { s with status := { s.status with ovr := true } } else s.accept c

/-- A write to `MR_ROUNDS`: `K` from bits 15:0, at any time (R31, R281). -/
def State.writeMrRounds (s : State) (v : Word) : State := { s with mrRounds := v.setWidth 16 }

/-- A write to `RETRY_MAX`, at any time (R32, R281). -/
def State.writeRetryMax (s : State) (v : Word) : State := { s with retryMax := v }

/-- A write to `RNG_DATA` (R41): while busy nothing is appended and WERR is set; while idle four bytes are appended "if at
least four places are free; else it appends nothing and sets `STATUS.FOVR`". -/
def State.writeRngData (s : State) (v : Word) : State :=
  if s.busy then s.setWerr
  else if s.rng.queue.length + 4 ≤ s.cfg.fifoBytes then
    { s with rng := { s.rng with queue := s.rng.queue ++ bytesOf v } }
  else { s with status := { s.status with fovr := true } }

/-- A write to word `j` of `Ri` (R66): while idle the word is replaced; while busy nothing changes but `WERR <- 1`. -/
def State.writeBig (s : State) (i : Fin 8) (j : Nat) (v : Word) : State :=
  if s.busy then s.setWerr else s.setReg i (putWord s.regs[i] j v)

end Sys2Proof.Machine
end

