-- ==== Sys2Proof/Machine/Bus.lean ====
section
/-! DEFINITION. The bus interface (R60 to R79): the register map (R64), the reads, which have no effect (R72), and the
writes. -/

namespace Sys2Proof.Machine

/-- The six key-bank registers, in the order of their numbers (R67). -/
inductive KeyReg where
  | p
  | q
  | n
  | phi
  | e
  | d
  deriving DecidableEq, Repr

/-- The value of a key-bank register (R24). -/
def KeyBank.get (k : KeyBank) : KeyReg → Nat
  | .p => k.p
  | .q => k.q
  | .n => k.n
  | .phi => k.phi
  | .e => k.e
  | .d => k.d

/-- What stands at a 32-bit word of the window (R64). -/
inductive Slot where
  | id
  | ctrl
  | status
  | cmd
  | mrRounds
  | retryMax
  | attempts
  | restarts
  | errinfo
  | rngData
  | rngLevel
  /-- Word `j` of `Ri` (R66). -/
  | big (i : Fin 8) (j : Nat)
  /-- Word `j` of a key-bank register (R67). -/
  | key (k : KeyReg) (j : Nat)
  deriving DecidableEq, Repr

/-- Key-bank register number `k` (R67). -/
def keyRegAt (k : Nat) : Option KeyReg := [KeyReg.p, .q, .n, .phi, .e, .d][k]?

/-- The control and status registers, by word offset from 0x000 (R64). -/
def ctrlSlotAt (w : Nat) : Option Slot :=
  [Slot.id, .ctrl, .status, .cmd, .mrRounds, .retryMax, .attempts, .restarts, .errinfo, .rngData, .rngLevel][w]?

/-- The register map (R64): what an aligned offset of the window holds. None is a reserved offset, or a word `j >= W` of a
big register (R63, R66, R67). -/
def slotAt (c : Params) (off : Nat) : Option Slot :=
  let j := off % 0x200 / 4
  if off < 0x1000 then ctrlSlotAt (off / 4)
  else if off < 0x2000 then
    if j < c.words then some (.big ⟨(off - 0x1000) / 0x200 % 8, Nat.mod_lt _ (by decide)⟩ j) else none
  else if j < c.words then (keyRegAt ((off - 0x2000) / 0x200)).map (fun k => .key k j)
  else none

/-- The register an access reaches, or `BusFault(offset)`: another width than 32 bits, an offset that is no multiple of 4
(R62), a reserved offset (R63). -/
def busSlot (c : Params) (off width : Nat) : Except Fault Slot :=
  if width ≠ 4 ∨ off % 4 ≠ 0 then .error (.busFault off)
  else
    match slotAt c off with
    | some sl => .ok sl
    | none => .error (.busFault off)

/-- The 32-bit value a register reads as: a write-only register reads 0 (R65). -/
def State.readSlot (s : State) : Slot → Word
  | .id => s.idWord
  | .ctrl => s.ctrlWord
  | .status => s.statusWord
  | .cmd => 0
  | .mrRounds => s.mrRoundsWord
  | .retryMax => s.retryMax
  | .attempts => s.attempts
  | .restarts => s.restarts
  | .errinfo => s.errinfo
  | .rngData => 0
  | .rngLevel => s.rngLevelWord
  | .big i j => wordOf s.regs[i] j
  | .key k j => wordOf (s.key.get k) j

/-- A write of a register: a read-only register ignores it (R65); a key-bank word answers a bus error (R67), which
`busWrite` raises. -/
def State.writeSlot (s : State) (v : Word) : Slot → State
  | .ctrl => s.writeCtrl v
  | .status => s.writeStatus v
  | .cmd => s.writeCmd v
  | .mrRounds => s.writeMrRounds v
  | .retryMax => s.writeRetryMax v
  | .rngData => s.writeRngData v
  | .big i j => s.writeBig i j v
  | .id => s
  | .attempts => s
  | .restarts => s
  | .errinfo => s
  | .rngLevel => s
  | .key _ _ => s

/-- `MemRead(BASE + off, width)` (R15): the word, or the bus error. A read changes nothing (R72). -/
def busRead (s : State) (off width : Nat) : Except Fault Word := (busSlot s.cfg off width).map s.readSlot

/-- `MemWrite(BASE + off, width, v)` (R15): the state after it, or the bus error, which changes nothing (R62). -/
def busWrite (s : State) (off width : Nat) (v : Word) : Except Fault State :=
  match busSlot s.cfg off width with
  | .error f => .error f
  | .ok (.key _ _) => .error (.busFault off)
  | .ok sl => .ok (s.writeSlot v sl)

/-- The offset in the window of a bus address (R61): the window is the 0x3000 bytes from `BASE`. -/
def windowOffset (c : Params) (addr : Nat) : Option Nat :=
  if c.base ≤ addr ∧ addr < c.base + 0x3000 then some (addr - c.base) else none

/-- The address of an access. -/
def Access.addr : Access → Nat
  | .read a _ => a
  | .write a _ _ => a

/-- One access at offset `off`, with its answer recorded. A bus error changes nothing else (R62, R235). -/
def State.access (s : State) (off : Nat) : Access → State
  | .read _ width =>
    match busRead s off width with
    | .ok v => { s with resp := some (.data v) }
    | .error f => { s with resp := some (.error f) }
  | .write _ width v =>
    match busWrite s off width v with
    | .ok s' => { s' with resp := some .accepted }
    | .error f => { s with resp := some (.error f) }

/-- A host step (R73): one access, atomic; an address outside the window is none of the block's
(notes/assumptions/5.md). -/
def hostStep (a : Access) (s : State) : Host.Outcome State Fault Refusal :=
  match windowOffset s.cfg a.addr with
  | some off => .next (s.access off a)
  | none => .fault (.outsideWindow a.addr)

end Sys2Proof.Machine
end

