-- ==== Sys2Proof/Machine/Control.lean ====
section
/-! DEFINITION. NOP (R220). -/

namespace Sys2Proof.Machine

/-- NOP (R220): completes with OK and `RESULT = 0`, and has no other effect. -/
def execNop (s : State) : Host.Outcome State Fault Refusal := .next (s.complete (.ok .nothing))

end Sys2Proof.Machine
end

