-- ==== Sys2Proof/Machine/Random.lean ====
section
/-! DEFINITION. The random draws (R140 to R146). A draw answers a value or raises RNGEMPTY, and says what the sources are
after it. -/

namespace Sys2Proof.Machine

/-- The error of a draw that lacks bytes, with "the number of bytes the failing draw needed" (R143, R232). -/
def rngEmpty (len : Nat) : CmdError := ⟨.rngempty, BitVec.ofNat 32 len⟩

/-- One TRNG draw: the free value of this draw, and the count advanced (R42). It never fails and never waits (R273). -/
def Rng.draw (g : Rng) : Nat × Rng := (freeDraw g.draws, { g with draws := g.draws + 1 })

/-- `DrawBytes_fifo(len)` (R143): the first `len` bytes, removed, as a big-endian integer; RNGEMPTY removes nothing. -/
def drawBytesFifo (len : Nat) (g : Rng) : Except CmdError Nat × Rng :=
  if g.queue.length < len then (.error (rngEmpty len), g)
  else (.ok (bigEndian (g.queue.take len)), { g with queue := g.queue.drop len })

/-- `DrawBytes(len)` (R142, R143): with the TRNG a free value in `[0, 256^len)`. -/
def drawBytes (src : RngSrc) (len : Nat) (g : Rng) : Except CmdError Nat × Rng :=
  match src with
  | .trng => (.ok (g.draw.1 % 256 ^ len), g.draw.2)
  | .fifo => drawBytesFifo len g

/-- `DrawBase(n)` for odd `n >= 5` (R144, R145): a base in `[2, n-2]`. With the TRNG a free value in that range; with the
host FIFO `2 + (v mod (n - 3))` from `ByteLen(n)` bytes `v`. -/
def drawBase (src : RngSrc) (n : Nat) (g : Rng) : Except CmdError Nat × Rng :=
  match src with
  | .trng => (.ok (2 + g.draw.1 % (n - 3)), g.draw.2)
  | .fifo =>
    match drawBytesFifo (byteLen n) g with
    | (.ok v, g') => (.ok (2 + v % (n - 3)), g')
    | (.error e, g') => (.error e, g')

end Sys2Proof.Machine
end

