-- ==== Sys2Proof/Machine/Primality.lean ====
section
/-! DEFINITION. The Miller-Rabin test (R151) and the commands MRTEST (R150) and PRIMEGEN (R156), with the attempt PRIMEGEN
and KEYGEN share (R157). -/

namespace Sys2Proof.Machine

/-- The squarings of one round (R151): up to `j` times `x <- (x * x) mod n`, true as soon as `x = n - 1`. -/
def squarings (n : Nat) : Nat → Nat → Bool
  | 0, _ => false
  | j + 1, x => if x * x % n = n - 1 then true else squarings n j (x * x % n)

/-- One round with base `a` (R151): `x = a^d mod n` is 1 or `n - 1`, or one of `s - 1` squarings gives `n - 1`. -/
def roundPasses (n d s a : Nat) : Bool :=
  let x := modExp a d n
  x == 1 || x == n - 1 || squarings n (s - 1) x

/-- Step 3 of R151 for `k` rounds: each draws a base; the first round that fails ends the test with false, and a draw that
lacks bytes ends it with RNGEMPTY. No round left is step 4, true. -/
def rounds (src : RngSrc) (n d s : Nat) : Nat → Rng → Except CmdError Bool × Rng
  | 0, g => (.ok true, g)
  | k + 1, g =>
    match drawBase src n g with
    | (.error e, g') => (.error e, g')
    | (.ok a, g') => if roundPasses n d s a then rounds src n d s k g' else (.ok false, g')

/-- `MillerRabin(n, k)` (R151): even is false, an odd `n < 5` raises DOMAIN before any draw (R152), else `k` rounds. -/
def millerRabin (src : RngSrc) (n k : Nat) (g : Rng) : Except CmdError Bool × Rng :=
  if n % 2 = 0 then (.ok false, g)
  else if n < 5 then (.error ⟨.domain, low32 n⟩, g)
  else rounds src n (oddPart n).1 (oddPart n).2 k g

/-- MRTEST (R150): the test of `Ra` with the latched round count, in one engine step; the boolean is the commit. -/
def execMrtest (ra : RegField) (s : State) : Host.Outcome State Fault Refusal :=
  let r := millerRabin s.lat.src (s.operand ra) s.lat.k.toNat s.rng
  .next (({ s with rng := r.2 } : State).complete (r.1.map .result))

/-- `Attempt(len)` (R157), one engine step of PRIMEGEN or KEYGEN: the ceiling, one candidate, counted once it is drawn,
and its test. `some c` is `Found(c)`, `none` is `Again`. -/
def attempt (len : Nat) (s : State) : Except CmdError (Option Nat) × State :=
  if s.lat.rmax ≠ 0 ∧ s.lat.rmax ≤ s.attempts then (.error ⟨.exhausted, s.attempts⟩, s)
  else
    match drawBytes s.lat.src len s.rng with
    | (.error e, g) => (.error e, { s with rng := g })
    | (.ok c, g) =>
      let r := millerRabin s.lat.src c s.lat.k.toNat g
      (r.1.map fun b => if b then some c else none, { s with rng := r.2, attempts := satInc s.attempts })

/-- PRIMEGEN (R156), one engine step (R213): the length check, which a later step only repeats
(notes/assumptions/8.md), then one attempt. `Again` leaves the command running. -/
def execPrimegen (rd : RegField) (imm : BitVec 16) (s : State) : Host.Outcome State Fault Refusal :=
  .next <|
    if immValue imm = 0 ∨ s.cfg.opw < 8 * immValue imm then s.raise ⟨.param, immWord imm⟩
    else
      match attempt (immValue imm) s with
      | (.error e, s') => s'.raise e
      | (.ok none, s') => s'
      | (.ok (some c), s') => s'.complete (.ok (.reg (regIdx rd) c))

end Sys2Proof.Machine
end

