-- ==== Sys2Proof/Machine/Keygen.lean ====
section
/-! DEFINITION. KEYGEN, the key generator orchestrator (R170 to R177). -/

namespace Sys2Proof.Machine

/-- Steps 2 to 5 of R171 for the primes `p` and `q`: `none` where step 4 regenerates (`gcd(e, phi) != 1`, or `p = q` by
C1, R173), else the key pair. -/
def keyPair (p q : Nat) : Option KeyBank :=
  let phi := (p - 1) * (q - 1)
  if Nat.gcd eFixed phi ≠ 1 ∨ p = q then none
  else some { p := p, q := q, n := p * q, phi := phi, e := eFixed, d := modInverse eFixed phi }

/-- What a step of KEYGEN does with a found prime `c` (R171): in phase `GenP` it is `p` and phase `GenQ` begins; in phase
`GenQ` it is `q`, and the step commits the key pair or counts a regeneration and goes back to phase `GenP`. A microstate
that no accepted KEYGEN has (empty) counts as phase `GenP` (notes/assumptions/7.md). -/
def keygenFound (c : Nat) (s : State) : State :=
  match s.mic with
  | .genQ p =>
    match keyPair p c with
    | some k => s.complete (.ok (.keyPair k))
    | none => ({ s with restarts := satInc s.restarts } : State).setMic .genP
  | _ => s.setMic (.genQ c)

/-- KEYGEN (R171), one engine step (R213): the length check (R172), which a later step only repeats
(notes/assumptions/8.md), then one attempt and what R171 does with its answer. -/
def execKeygen (imm : BitVec 16) (s : State) : Host.Outcome State Fault Refusal :=
  .next <|
    if primeLen imm = 0 ∨ s.cfg.opw < 16 * primeLen imm then s.raise ⟨.param, immWord imm⟩
    else
      match attempt (primeLen imm) s with
      | (.error e, s') => s'.raise e
      | (.ok none, s') => s'
      | (.ok (some c), s') => keygenFound c s'

end Sys2Proof.Machine
end

