-- ==== Sys2Proof/Machine/ModArith.lean ====
section
/-! DEFINITION. MODEXP (R110), MODINV (R115) and GCD (R120). Each runs in one engine step. -/

namespace Sys2Proof.Machine

/-- The value of MODEXP or its error (R110): a zero modulus is DIVZERO. -/
def modexpValue (a b m : Nat) : Except CmdError Nat :=
  if m = 0 then .error ⟨.divzero, 0⟩ else .ok (modExp a b m)

/-- MODEXP (R110): `Rd <- Ra ^ Rb mod Rc`. -/
def execModexp (rd ra rb rc : RegField) (s : State) : Host.Outcome State Fault Refusal :=
  .next (s.complete ((modexpValue (s.operand ra) (s.operand rb) (s.operand rc)).map (.reg (regIdx rd))))

/-- The value of MODINV or its error (R115): DIVZERO, then NOTCOPRIME with the low 32 bits of the gcd. -/
def modinvValue (a m : Nat) : Except CmdError Nat :=
  if m = 0 then .error ⟨.divzero, 0⟩
  else if Nat.gcd a m ≠ 1 then .error ⟨.notcoprime, low32 (Nat.gcd a m)⟩
  else .ok (modInverse a m)

/-- MODINV (R115): `Rd <- Ra^-1 mod Rb`. -/
def execModinv (rd ra rb : RegField) (s : State) : Host.Outcome State Fault Refusal :=
  .next (s.complete ((modinvValue (s.operand ra) (s.operand rb)).map (.reg (regIdx rd))))

/-- GCD (R120): `Rd <- gcd(Ra, Rb)`, with no error. -/
def execGcd (rd ra rb : RegField) (s : State) : Host.Outcome State Fault Refusal :=
  .next (s.complete (.ok (.reg (regIdx rd) (Nat.gcd (s.operand ra) (s.operand rb)))))

end Sys2Proof.Machine
end

