-- ==== Sys2Proof/Machine/Transform.lean ====
section
/-! DEFINITION. ENCRYPT (R190) and DECRYPT (R195). Each runs in one engine step. -/

namespace Sys2Proof.Machine

/-- The transform with exponent `e` (R190, R195): NOKEY without a key pair, RANGE for an input `>= KP.N` with the latched
range check on (R191), else `ModExp(x, e, KP.N)`, which reduces a larger input silently (R192). -/
def transformValue (s : State) (x e : Nat) : Except CmdError Nat :=
  if s.keyValid = false then .error ⟨.nokey, 0⟩
  else if s.lat.rchk = true ∧ s.key.n ≤ x then .error ⟨.range, 0⟩
  else .ok (modExp x e s.key.n)

/-- ENCRYPT (R190): `Rd <- Ra ^ KP.E mod KP.N`. -/
def execEncrypt (rd ra : RegField) (s : State) : Host.Outcome State Fault Refusal :=
  .next (s.complete ((transformValue s (s.operand ra) s.key.e).map (.reg (regIdx rd))))

/-- DECRYPT (R195): `Rd <- Ra ^ KP.D mod KP.N`. -/
def execDecrypt (rd ra : RegField) (s : State) : Host.Outcome State Fault Refusal :=
  .next (s.complete ((transformValue s (s.operand ra) s.key.d).map (.reg (regIdx rd))))

end Sys2Proof.Machine
end

