-- ==== Sys2Proof/Machine/Dispatch.lean ====
section
/-! DEFINITION. One engine step of a command (R213): one arm per constructor of `Instr`, each one direct call of its
meaning. -/

namespace Sys2Proof.Machine

def exec (i : Instr) (s : State) : Host.Outcome State Fault Refusal :=
  match i with
  | .nop => Sys2Proof.Machine.execNop s
  | .modexp rd ra rb rc => Sys2Proof.Machine.execModexp rd ra rb rc s
  | .modinv rd ra rb => Sys2Proof.Machine.execModinv rd ra rb s
  | .gcd rd ra rb => Sys2Proof.Machine.execGcd rd ra rb s
  | .mrtest ra => Sys2Proof.Machine.execMrtest ra s
  | .primegen rd imm => Sys2Proof.Machine.execPrimegen rd imm s
  | .keygen imm => Sys2Proof.Machine.execKeygen imm s
  | .encrypt rd ra => Sys2Proof.Machine.execEncrypt rd ra s
  | .decrypt rd ra => Sys2Proof.Machine.execDecrypt rd ra s

end Sys2Proof.Machine
end

