-- ==== Sys2Proof/Machine/Engine.lean ====
section
/-! DEFINITION. The steps of the three kinds (R210): the engine's (R213), the host's, reset's; whose turn it is; and how a
command comes to run. -/

namespace Sys2Proof.Machine

/-- The error of a word that is no command: ILLEGAL with `ERRINFO = c` (R100, R232, R233). -/
def illegalError (c : Word) : CmdError := ⟨.illegal, c⟩

/-- An engine step (R213): the running word is decoded and its command takes one step; a word that is no command completes
with ILLEGAL before anything else (R233). "When `eng = Idle` the engine takes no steps" (R255): nothing changes. -/
def engineStep (s : State) : Host.Outcome State Fault Refusal :=
  match s.eng with
  | .idle => .next s
  | .busy c _ _ =>
    match decode c with
    | .ok i => exec i s
    | .error _ => .next (s.raise (illegalError c))

/-- One step of the agent whose turn it is (R210). -/
def turnStep (t : Turn) (s : State) : Host.Outcome State Fault Refusal :=
  match t with
  | .engine => engineStep s
  | .host a => hostStep a s
  | .reset => .next s.rst

/-- One step: the first turn of the list, taken out of it. With no turn left the engine goes on by itself, so that it
always takes its next step after finitely many host steps (R217); once it is idle the run has ended (R221) and nothing
changes (notes/assumptions/3.md). -/
def nextStep (s : State) : Host.Outcome State Fault Refusal :=
  match s.turns with
  | [] => engineStep s
  | t :: rest => turnStep t { s with turns := rest }

/-- The word `w` of `nbits` bits accepted as a write to `CMD` accepts it (R211), with the engine's turn next
(notes/assumptions/9.md). -/
def loadCommand (s : State) (nbits w : Nat) : State :=
  { s.accept (BitVec.ofNat 32 (w % 2 ^ nbits)) with turns := .engine :: s.turns }

end Sys2Proof.Machine
end

