-- ==== Sys2Proof/Machine/Step.lean ====
section
/-! DEFINITION. The machine's step, and the state whose next step runs a given command word. -/

namespace Sys2Proof.Machine

/-- One step of the block with its host (R73, R210): `nextStep`. -/
def step (s : State) : Host.Outcome State Fault Refusal := nextStep s

/-- `s` with the command word accepted and the engine's turn next (R211; notes/assumptions/9.md): `loadCommand`. -/
def State.withFetchWord (s : State) (nbits w : Nat) : State := loadCommand s nbits w

end Sys2Proof.Machine
end

