-- ==== Sys2Proof/Machine/HostOps.lean ====
section
/-! DEFINITION. The host pseudo-instructions of R102 as turns: sequences of bus accesses, no commands of the block. -/

namespace Sys2Proof.Machine

/-- `w32 off, v`: `MemWrite(BASE + off, 4, v)` (R102). -/
def w32 (c : Params) (off : Nat) (v : Word) : Turn := .host (.write (c.base + off) 4 v)

/-- `r32 off`: `MemRead(BASE + off, 4)` (R102). -/
def r32 (c : Params) (off : Nat) : Turn := .host (.read (c.base + off) 4)

/-- `cmd <command>`: `w32 0x00C, <encoding of command>` (R102). -/
def cmd (c : Params) (i : Instr) : Turn := w32 c 0x00C (encode i)

/-- One poll of `wait`: `s = r32 0x008` (R102). The loop is the host's (R218). -/
def waitPoll (c : Params) : Turn := r32 c 0x008

/-- The test that ends `wait`: bit 0 of the polled `STATUS` is not 1 (R102). -/
def waitEnds (polled : Word) : Bool := !polled.getLsbD 0

/-- `ldbig ri, V`: word `j` of `V` to word `j` of `Ri`, for `j` in 0..W-1 (R102). -/
def ldbig (c : Params) (i : Fin 8) (v : Nat) : List Turn :=
  (List.range c.words).map fun j => w32 c (0x1000 + 0x200 * i.val + 4 * j) (wordOf v j)

/-- `rdbig ri`: the words of `Ri`, least significant first (R102). -/
def rdbig (c : Params) (i : Fin 8) : List Turn :=
  (List.range c.words).map fun j => r32 c (0x1000 + 0x200 * i.val + 4 * j)

/-- The value a host assembles from the words of `rdbig`, "least-significant word first" (R102). -/
def assembleBig (ws : List Word) : Nat := ws.foldr (fun w acc => acc * 2 ^ 32 + w.toNat) 0

/-- `rdkey k`: the words of key-bank register number `k` (R102). -/
def rdkey (c : Params) (k : Nat) : List Turn :=
  (List.range c.words).map fun j => r32 c (0x2000 + 0x200 * k + 4 * j)

/-- `rngfeed w1, ..., wn` (R102). -/
def rngfeed (c : Params) (ws : List Word) : List Turn := ws.map fun w => w32 c 0x024 w

end Sys2Proof.Machine
end

