-- ==== Sys2Proof/Safety.lean ====
section
/-! DEFINITION. The words the claims are stated in: what a legal state is (the ranges of R21, R24, R37, the key pair's
invariants of R26, the engine's of R38 and R40), what the end of a command looks like (R215), a run of several steps, the
Miller-Rabin condition said without an algorithm (R151), and a safe run. -/

namespace Sys2Proof.Machine

/-! ### Runs -/

/-- `k` steps, stopping at the first fault or refusal. -/
def steps : Nat → State → Host.Outcome State Fault Refusal
  | 0, s => .next s
  | k + 1, s =>
    match step s with
    | .next t => steps k t
    | .fault f => .fault f
    | .refused r => .refused r

/-- Every host turn to come addresses the window (R61), as the platform's bus sees to it: then no step stops. -/
def State.Safe (s : State) : Prop :=
  ∀ a, Turn.host a ∈ s.turns → s.cfg.base ≤ a.addr ∧ a.addr < s.cfg.base + 0x3000

/-! ### The end of a command -/

/-- `s` with what every completion writes (R215) and nothing else: `ERR`, `RESULT`, `ERRINFO`, `DONE = 1`, `BUSY = 0`. -/
def ended (code : ErrCode) (res : Bool) (info : Word) (s : State) : State :=
  { s with
    status :=
      { done := true, result := res, err := code, ovr := s.status.ovr, werr := s.status.werr, fovr := s.status.fovr }
    errinfo := info
    eng := .idle }

/-- The register a command may write (R21), if any. -/
def dest : Instr → Option (Fin 8)
  | .nop => none
  | .modexp rd _ _ _ => some (regIdx rd)
  | .modinv rd _ _ => some (regIdx rd)
  | .gcd rd _ _ => some (regIdx rd)
  | .mrtest _ => none
  | .primegen rd _ => some (regIdx rd)
  | .keygen _ => none
  | .encrypt rd _ => some (regIdx rd)
  | .decrypt rd _ => some (regIdx rd)

/-- The commands that run in one engine step: every one but PRIMEGEN and KEYGEN (R213, R217). -/
def oneStep : Instr → Bool
  | .primegen _ _ => false
  | .keygen _ => false
  | .nop => true
  | .modexp _ _ _ _ => true
  | .modinv _ _ _ => true
  | .gcd _ _ _ => true
  | .mrtest _ => true
  | .encrypt _ _ => true
  | .decrypt _ _ => true

/-! ### The Miller-Rabin condition -/

/-- A base `a` for which the odd `n` passes one round (R151): with `n - 1 = d * 2^e`, `d` odd, `a^d mod n` is 1, or one of
`a^d`, `a^(2d)`, ..., `a^(2^(e-1) d)` is `n - 1` modulo `n`. -/
def PassesRound (n a : Nat) : Prop :=
  ∃ d e, d % 2 = 1 ∧ n - 1 = d * 2 ^ e ∧ (a ^ d % n = 1 ∨ ∃ r, r < e ∧ a ^ (d * 2 ^ r) % n = n - 1)

/-- The base of round `i` (from 0) with the host FIFO (R145): the `i`-th `ByteLen(n)` bytes of the queue. -/
def fifoBase (n : Nat) (queue : List Byte) (i : Nat) : Nat :=
  2 + bigEndian ((queue.drop (i * byteLen n)).take (byteLen n)) % (n - 3)

/-- The base of round `i` (from 0) with the TRNG (R144), the draws so far being `draws`. -/
def trngBase (n draws i : Nat) : Nat := 2 + freeDraw (draws + i) % (n - 3)

/-! ### Legal states -/

/-- Every key-bank register is below `2^w` (R24). -/
structure KeyBank.Fits (w : Nat) (k : KeyBank) : Prop where
  p : k.p < 2 ^ w
  q : k.q < 2 ^ w
  n : k.n < 2 ^ w
  phi : k.phi < 2 ^ w
  e : k.e < 2 ^ w
  d : k.d < 2 ^ w

/-- The invariants of the KeyPair (R26), with what having passed the Miller-Rabin test implies of `p` and `q` whatever the
draws were: odd and at least 5 (R151, R174). -/
structure KeyBank.Valid (k : KeyBank) : Prop where
  distinct : k.p ≠ k.q
  p_tested : k.p % 2 = 1 ∧ 5 ≤ k.p
  q_tested : k.q % 2 = 1 ∧ 5 ≤ k.q
  modulus : k.n = k.p * k.q
  totient : k.phi = (k.p - 1) * (k.q - 1)
  exponent : k.e = eFixed
  coprime : Nat.gcd k.e k.phi = 1
  d_range : 1 ≤ k.d ∧ k.d < k.phi
  inverse : k.e * k.d % k.phi = 1

/-- The microstate fits the command (R40): empty for every word but KEYGEN's; a prime kept in phase `GenQ` passed the test
and is of KEYGEN's byte length, which passed the length check (R171, R172). -/
def Eng.Legal (c : Params) : Eng → Prop
  | .idle => True
  | .busy w _ .empty => isKeygen w = false
  | .busy w _ .genP => isKeygen w = true
  | .busy w _ (.genQ p) =>
    ∃ imm, decode w = .ok (.keygen imm) ∧ primeLen imm ≠ 0 ∧ 16 * primeLen imm ≤ c.opw ∧
      p < 256 ^ primeLen imm ∧ p % 2 = 1 ∧ 5 ≤ p

/-- A legal state: parameters an implementation may have (R8 to R10), every big register in `[0, 2^OPW)` (R21, R24), at
most `4 * FIFO_DEPTH` bytes in `RNGQ` (R37, R41), the KeyPair's invariants while `KEYVALID = 1` (R26), and a microstate
that fits the command (R40). -/
structure State.Inv (s : State) : Prop where
  cfg : s.cfg.wf = true
  regs : ∀ i : Fin 8, s.regs[i] < 2 ^ s.cfg.opw
  key : s.key.Fits s.cfg.opw
  queue : s.rng.queue.length ≤ s.cfg.fifoBytes
  pair : s.keyValid = true → s.key.Valid
  eng : s.eng.Legal s.cfg

/-- While PRIMEGEN or KEYGEN runs under a ceiling `c != 0`, at most `c` candidates have been drawn (R157). -/
def State.CeilingKept (s : State) : Prop :=
  ∀ c lat mic, s.eng = .busy c lat mic → (isPrimegen c || isKeygen c) = true → lat.rmax ≠ 0 → s.attempts ≤ lat.rmax

end Sys2Proof.Machine
end

