-- ==== Sys2Proof/Certificates/Slice0/Obligations.lean ====
section
/-! DEFINITION. The statements for the provers. A step here is a step of R210, of the engine, of a host or of reset;
which one comes next is said by the first element of `turns`, the model's own way to name one interleaving of R73
(notes/assumptions/3.md). -/

open Sys2Proof Sys2Proof.Machine

/-! ### Encoding -/

/-- A well-formed command is read back whole from its word (R91 to R97, R101), and a register field of 8 to 15 makes the
word illegal (R95). -/
def Obligations.DecodeOfEncode : Prop :=
  ∀ i : Instr, (i.wf = true → decode (encode i) = .ok i) ∧ (i.wf = false → decode (encode i) = .error .registerField)

/-- A word that decodes is exactly the word of its command: no bit of a command word is a "don't care" (R96), so a word
with a nonzero unused field or a used register field of 8 to 15 decodes to no command. -/
def Obligations.DecodedWordIsItsEncoding : Prop :=
  ∀ (c : Word) (i : Instr), decode c = .ok i → encode i = c ∧ i.wf = true

/-- "The masks make the rows disjoint, so at most one row matches" (R100). -/
def Obligations.RowsAreDisjoint : Prop :=
  ∀ c : Word, ∀ r₁ ∈ rows, ∀ r₂ ∈ rows, r₁.hits c = true → r₂.hits c = true → r₁.opc = r₂.opc

/-- The worked encodings of R103, both ways, and its two illegal words. -/
def Obligations.WorkedEncodings : Prop :=
  (encode (.modexp 3 0 1 2) = 0x01301200 ∧ decode 0x01301200 = .ok (.modexp 3 0 1 2)) ∧
  (encode (.modinv 2 0 1) = 0x02201000 ∧ decode 0x02201000 = .ok (.modinv 2 0 1)) ∧
  (encode (.gcd 4 2 3) = 0x03423000 ∧ decode 0x03423000 = .ok (.gcd 4 2 3)) ∧
  (encode (.mrtest 5) = 0x04050000 ∧ decode 0x04050000 = .ok (.mrtest 5)) ∧
  (encode (.primegen 0 4) = 0x05000004 ∧ decode 0x05000004 = .ok (.primegen 0 4)) ∧
  (encode (.keygen 64) = 0x06000040 ∧ decode 0x06000040 = .ok (.keygen 64)) ∧
  (encode (.encrypt 1 0) = 0x07100000 ∧ decode 0x07100000 = .ok (.encrypt 1 0)) ∧
  (encode (.decrypt 2 1) = 0x08210000 ∧ decode 0x08210000 = .ok (.decrypt 2 1)) ∧
  (∃ e, decode 0x01381200 = .error e) ∧ (∃ e, decode 0x01301201 = .error e)

/-- "OPC values 0x09 to 0xFF are reserved. They are illegal: a word with one of them completes with error ILLEGAL" (R99):
the engine step of such a word reports ILLEGAL and changes nothing but the completion fields. -/
def Obligations.ReservedOpcodeEndsIllegal : Prop :=
  ∀ (s : State) (c : Word) (lat : Latch) (mic : Mic) (rest : List Turn),
    9 ≤ c.toNat / 2 ^ 24 → s.eng = .busy c lat mic →
    step { s with turns := .engine :: rest } = .next (ended .illegal false c { s with turns := rest })

/-! ### The life of a command -/

/-- An engine step runs the command its word decodes to, in the state with the engine's turn taken out of the list; with
no turn left the engine goes on by itself (R213). While idle "the engine takes no steps" (R255): its turn changes
nothing, and with no turn left the whole state stays (the list of turns, and this stutter of an ended run, are the
model's, notes/assumptions/3.md). -/
def Obligations.EngineStepRunsTheDecodedCommand : Prop :=
  ∀ s : State,
    (∀ (c : Word) (lat : Latch) (mic : Mic) (i : Instr), s.eng = .busy c lat mic → decode c = .ok i →
      (∀ rest, step { s with turns := .engine :: rest } = exec i { s with turns := rest }) ∧
      (s.turns = [] → step s = exec i s)) ∧
    (s.eng = .idle →
      (∀ rest, step { s with turns := .engine :: rest } = .next { s with turns := rest }) ∧
      (s.turns = [] → step s = .next s))


/-- The step after `withFetchWord` runs exactly the command of the word, in the state its accept leaves (R211;
notes/assumptions/9.md). -/
def Obligations.LoadedWordRunsNext : Prop :=
  ∀ (s : State) (nbits w : Nat) (i : Instr), decodeTableWord nbits w = some i →
    step (s.withFetchWord nbits w) = exec i (s.accept (BitVec.ofNat 32 (w % 2 ^ nbits)))

/-- A word that is no command ends at its engine step with ILLEGAL and `ERRINFO` the word, and nothing is read, drawn or
committed (R233). -/
def Obligations.IllegalWordEndsIllegal : Prop :=
  ∀ (s : State) (c : Word) (lat : Latch) (mic : Mic) (e : Illegal) (rest : List Turn),
    s.eng = .busy c lat mic → decode c = .error e →
    step { s with turns := .engine :: rest } = .next (ended .illegal false c { s with turns := rest })

/-- A host write of any word to `CMD` while the engine is idle is accepted in that step (R211): the word and the latched
parameters become the engine's, DONE, ERR, RESULT and ERRINFO are cleared, the counters are cleared for the commands that
count, and nothing else changes (the answer of the bus is recorded). -/
def Obligations.CommandIsAcceptedWhenIdle : Prop :=
  ∀ (s : State) (c : Word) (rest : List Turn), s.eng = .idle →
    step { s with turns := .host (.write (s.cfg.base + 0x00C) 4 c) :: rest } =
      .next { s with
        turns := rest
        resp := some .accepted
        eng := .busy c ⟨s.mrRounds, s.retryMax, s.ctrl.rngsrc, s.ctrl.rchk⟩ (if isKeygen c then .genP else .empty)
        status := { s.status with done := false, err := .ok, result := false }
        errinfo := 0
        attempts := if isPrimegen c || isKeygen c then 0 else s.attempts
        restarts := if isKeygen c then 0 else s.restarts }

/-- A word written to `CMD` while the engine is busy is dropped, the running command goes on unchanged, and OVR is set:
nothing else changes (R212). -/
def Obligations.CommandWhileBusyIsDropped : Prop :=
  ∀ (s : State) (c : Word) (rest : List Turn), s.eng ≠ .idle →
    step { s with turns := .host (.write (s.cfg.base + 0x00C) 4 c) :: rest } =
      .next { s with turns := rest, resp := some .accepted, status := { s.status with ovr := true } }

/-- The writes R281 names. In every state, idle or busy, a write to MR_ROUNDS takes `K` from bits 15:0 and a write to
RETRY_MAX takes the word, at once (R31, R32). While busy: a write to a word of a big register and one to `RNG_DATA` are
ignored and set WERR; a write to `CTRL` takes bits 0 to 2 and, with bit 3 set, sets WERR without a flush; a write to
`CMD` is dropped and sets OVR. In each case the running command and its latch stay as they were. -/
def Obligations.WritesWhileBusy : Prop :=
  ∀ (s : State) (v : Word) (rest : List Turn),
    (step { s with turns := .host (.write (s.cfg.base + 0x010) 4 v) :: rest } =
      .next { s with turns := rest, resp := some .accepted, mrRounds := v.setWidth 16 }) ∧
    (step { s with turns := .host (.write (s.cfg.base + 0x014) 4 v) :: rest } =
      .next { s with turns := rest, resp := some .accepted, retryMax := v }) ∧
    (s.eng ≠ .idle →
      (∀ (i : Fin 8) (j : Nat), j < s.cfg.words → s.cfg.wf = true →
        step { s with turns := .host (.write (s.cfg.base + (0x1000 + 0x200 * i.val + 4 * j)) 4 v) :: rest } =
          .next { s with turns := rest, resp := some .accepted, status := { s.status with werr := true } }) ∧
      (step { s with turns := .host (.write (s.cfg.base + 0x024) 4 v) :: rest } =
        .next { s with turns := rest, resp := some .accepted, status := { s.status with werr := true } }) ∧
      (step { s with turns := .host (.write (s.cfg.base + 0x004) 4 v) :: rest } =
        .next { s with
          turns := rest
          resp := some .accepted
          ctrl := ⟨v.getLsbD 0, if v.getLsbD 1 then .fifo else .trng, v.getLsbD 2⟩
          status := { s.status with werr := s.status.werr || v.getLsbD 3 } }) ∧
      (step { s with turns := .host (.write (s.cfg.base + 0x00C) 4 v) :: rest } =
        .next { s with turns := rest, resp := some .accepted, status := { s.status with ovr := true } }))


/-- "The running command reads only `lat`, never the live registers" (R39): while a command runs, other values of
`MR_ROUNDS`, `RETRY_MAX` and `CTRL` change nothing of what its step does. -/
def Obligations.RunningCommandReadsOnlyItsLatch : Prop :=
  ∀ (i : Instr) (s t : State) (k : BitVec 16) (r : Word) (ct : Ctrl), s.eng ≠ .idle → exec i s = .next t →
    exec i { s with mrRounds := k, retryMax := r, ctrl := ct } = .next { t with mrRounds := k, retryMax := r, ctrl := ct }

/-- No access of the host changes what a running command works on: while busy, an access leaves the engine, the big
registers, the key bank, `RNGQ`, the counters, ERRINFO, ERR and RESULT as they are (R66, R146, R212, R281). -/
def Obligations.HostCannotDisturbARunningCommand : Prop :=
  ∀ (s t : State) (a : Access) (rest : List Turn), s.eng ≠ .idle →
    step { s with turns := .host a :: rest } = .next t →
    t.eng = s.eng ∧ t.regs = s.regs ∧ t.key = s.key ∧ t.keyValid = s.keyValid ∧ t.rng = s.rng ∧
    t.attempts = s.attempts ∧ t.restarts = s.restarts ∧ t.errinfo = s.errinfo ∧
    t.status.err = s.status.err ∧ t.status.result = s.status.result ∧ t.cfg = s.cfg

/-- A command commits in the step that completes it and in no earlier one, and a command that raises an error commits
nothing (R214): a step after which it still runs, or that ends in an error, leaves every register, the key bank and
KEYVALID unchanged, and RESULT is then unchanged or 0. -/
def Obligations.NothingIsCommittedWithoutSuccess : Prop :=
  ∀ (i : Instr) (s t : State), s.eng ≠ .idle → exec i s = .next t → (t.eng ≠ .idle ∨ t.status.err ≠ .ok) →
    t.regs = s.regs ∧ t.key = s.key ∧ t.keyValid = s.keyValid ∧
    (t.eng ≠ .idle → t.status = s.status) ∧ (t.eng = .idle → t.status.result = false)

/-- "Every command except PRIMEGEN and KEYGEN completes in one engine step" (R217), whatever the state: the engine is then
idle and DONE is 1. -/
def Obligations.OneStepCommandsCompleteAtOnce : Prop :=
  ∀ (i : Instr) (s : State), oneStep i = true → ∃ t, exec i s = .next t ∧ t.eng = .idle ∧ t.status.done = true

/-- Every completion raises DONE and with it the level `irq = CTRL.IE and STATUS.DONE`, with or without an error; RESULT
is 1 only after an MRTEST that ended without error; ERRINFO is 0 after a success (R215, R240). -/
def Obligations.CompletionSignalsDone : Prop :=
  ∀ (i : Instr) (s t : State), s.eng ≠ .idle → exec i s = .next t → t.eng = .idle →
    t.status.done = true ∧ t.irq = s.ctrl.ie ∧
    (t.status.result = true → t.status.err = .ok ∧ ∃ ra, i = .mrtest ra) ∧
    (t.status.err = .ok → t.errinfo = 0)

/-- No step of the block stops: the engine never traps the host (R230) and a bus error is an answer (R235). Only a host
turn that addresses no byte of the window stops a run (the model's choice, notes/assumptions/5.md). -/
def Obligations.OnlyAnAccessOutsideTheWindowStops : Prop :=
  ∀ s : State,
    (s.Safe → ∃ t, step s = .next t ∧ t.Safe) ∧
    (∀ f, step s = .fault f → ∃ a rest, s.turns = .host a :: rest ∧ f = .outsideWindow a.addr) ∧
    (∀ r, step s ≠ .refused r)

/-! ### The bus -/

/-- A bus error has no effect on any state, whether the block is idle or busy: an access of another width than 32 bits or
at an offset that is no multiple of 4 (R62); a reserved offset, or a word beyond the last of a big register (R63). The
answer the host gets is the fault `BusFault(offset)`, and that is all that changes. -/
def Obligations.BusErrorChangesNothing : Prop :=
  ∀ (s : State) (off width : Nat) (v : Word) (rest : List Turn), off < 0x3000 →
    (width ≠ 4 ∨ off % 4 ≠ 0 ∨ (0x02C ≤ off ∧ off < 0x1000) ∨ 0x2C00 ≤ off ∨
      (0x1000 ≤ off ∧ 4 * s.cfg.words ≤ off % 0x200)) →
    step { s with turns := .host (.read (s.cfg.base + off) width) :: rest } =
      .next { s with turns := rest, resp := some (.error (.busFault off)) } ∧
    step { s with turns := .host (.write (s.cfg.base + off) width v) :: rest } =
      .next { s with turns := rest, resp := some (.error (.busFault off)) }

/-- R65: a write to ID, ATTEMPTS, RESTARTS, ERRINFO or RNG_LEVEL is accepted by the bus and ignored; a read of CMD or
RNG_DATA returns 0; a write to a word of the key bank gets a bus error and changes nothing. -/
def Obligations.ReadOnlyAndWriteOnlyRegisters : Prop :=
  ∀ (s : State) (v : Word) (rest : List Turn), s.cfg.wf = true →
    (∀ off ∈ [0x000, 0x018, 0x01C, 0x020, 0x028],
      step { s with turns := .host (.write (s.cfg.base + off) 4 v) :: rest } =
        .next { s with turns := rest, resp := some .accepted }) ∧
    (∀ off ∈ [0x00C, 0x024],
      step { s with turns := .host (.read (s.cfg.base + off) 4) :: rest } =
        .next { s with turns := rest, resp := some (.data 0) }) ∧
    (∀ k j, k < 6 → j < s.cfg.words →
      step { s with turns := .host (.write (s.cfg.base + (0x2000 + 0x200 * k + 4 * j)) 4 v) :: rest } =
        .next { s with turns := rest, resp := some (.error (.busFault (0x2000 + 0x200 * k + 4 * j))) })

/-- No read has a side effect (R72): whatever the access, a read changes nothing but the answer the bus gives, and the
same read again gives the same answer. -/
def Obligations.ReadsChangeNothing : Prop :=
  ∀ (s t : State) (addr width : Nat) (rest : List Turn),
    step { s with turns := .host (.read addr width) :: rest } = .next t →
    t = { s with turns := rest, resp := t.resp } ∧
    step { t with turns := .host (.read addr width) :: rest } = .next t

/-- `ID` (R27) reads as a constant, in every state: bits 31:16 are 0x4D52, bits 15:8 are 0x01, bits 7:0 are `W = OPW/32`;
a write to it is ignored. -/
def Obligations.IdentityRegister : Prop :=
  ∀ (s : State) (rest : List Turn), s.cfg.wf = true →
    ∃ w : Word, step { s with turns := .host (.read s.cfg.base 4) :: rest } =
        .next { s with turns := rest, resp := some (.data w) } ∧
      w.toNat = 0x4D520100 + s.cfg.opw / 32 ∧ w.extractLsb' 16 16 = 0x4D52 ∧ w.extractLsb' 8 8 = 0x01 ∧
      (w.extractLsb' 0 8).toNat = s.cfg.opw / 32 ∧
      ∀ v, step { s with turns := .host (.write s.cfg.base 4 v) :: rest } =
        .next { s with turns := rest, resp := some .accepted }

/-- What these registers of the map read as in every state, idle or busy (R64): `CTRL` is IE, RNGSRC (1 for the host FIFO)
and RCHK in bits 0 to 2 and 0 elsewhere (R28), `MR_ROUNDS` is `K` with bits 31:16 at 0 (R31), RETRY_MAX, ATTEMPTS,
RESTARTS and ERRINFO their 32 bits, RNG_LEVEL the number of bytes in `RNGQ` (R37), word `j` of `Ri` and of the key-bank
register `k` bits `[32*j + 31 : 32*j]` of its value (R66, R67, R68). Premise on RNG_LEVEL: the capacity of `RNGQ` fits its 32
bits, since the spec does not say what it reads otherwise (notes/assumptions/13.md). -/
def Obligations.RegistersReadTheirValue : Prop :=
  ∀ (s : State) (rest : List Turn), s.cfg.wf = true → s.rng.queue.length ≤ s.cfg.fifoBytes → s.cfg.fifoBytes < 2 ^ 32 →
    (∀ off (w : Word),
      (off, w.toNat) ∈ [
        (0x004, s.ctrl.ie.toNat + 2 * (if s.ctrl.rngsrc = .fifo then 1 else 0) + 4 * s.ctrl.rchk.toNat),
        (0x010, s.mrRounds.toNat), (0x014, s.retryMax.toNat), (0x018, s.attempts.toNat),
        (0x01C, s.restarts.toNat), (0x020, s.errinfo.toNat), (0x028, s.rng.queue.length)] →
      step { s with turns := .host (.read (s.cfg.base + off) 4) :: rest } =
        .next { s with turns := rest, resp := some (.data w) }) ∧
    (∀ (i : Fin 8) (j : Nat) (w : Word), j < s.cfg.words → w.toNat = s.regs[i] / 2 ^ (32 * j) % 2 ^ 32 →
      step { s with turns := .host (.read (s.cfg.base + (0x1000 + 0x200 * i.val + 4 * j)) 4) :: rest } =
        .next { s with turns := rest, resp := some (.data w) }) ∧
    (∀ (k j x : Nat) (w : Word), j < s.cfg.words →
      [s.key.p, s.key.q, s.key.n, s.key.phi, s.key.e, s.key.d][k]? = some x → w.toNat = x / 2 ^ (32 * j) % 2 ^ 32 →
      step { s with turns := .host (.read (s.cfg.base + (0x2000 + 0x200 * k + 4 * j)) 4) :: rest } =
        .next { s with turns := rest, resp := some (.data w) })

/-- The layout of `STATUS` as the host reads it (R29): BUSY exactly while the engine is busy (R38), DONE, RESULT,
KEYVALID, ERR with the codes of R231, of which 10 to 15 never appear, OVR, WERR, FOVR; the reserved bits read 0. -/
def Obligations.StatusLayout : Prop :=
  ∀ (s : State) (rest : List Turn),
    step { s with turns := .host (.read (s.cfg.base + 0x008) 4) :: rest } =
        .next { s with turns := rest, resp := some (.data s.statusWord) } ∧
      (s.statusWord.getLsbD 0 = true ↔ s.eng ≠ .idle) ∧
      s.statusWord.getLsbD 1 = s.status.done ∧ s.statusWord.getLsbD 2 = s.status.result ∧
      s.statusWord.getLsbD 3 = s.keyValid ∧
      ([ErrCode.ok, .illegal, .divzero, .notcoprime, .domain, .param, .exhausted, .nokey, .range, .rngempty][
        (s.statusWord.extractLsb' 4 4).toNat]? = some s.status.err) ∧
      s.statusWord.getLsbD 8 = s.status.ovr ∧ s.statusWord.getLsbD 9 = s.status.werr ∧
      s.statusWord.getLsbD 10 = s.status.fovr ∧ s.statusWord.toNat < 2 ^ 11

/-- A write to `STATUS`, idle or busy: writing 1 clears DONE, OVR, WERR and FOVR, writing 0 leaves them, and every other
bit of the word is ignored (R29). -/
def Obligations.StatusWriteOneClears : Prop :=
  ∀ (s : State) (v : Word) (rest : List Turn),
    step { s with turns := .host (.write (s.cfg.base + 0x008) 4 v) :: rest } =
      .next { s with
        turns := rest
        resp := some .accepted
        status :=
          { s.status with
            done := if v.getLsbD 1 then false else s.status.done
            ovr := if v.getLsbD 8 then false else s.status.ovr
            werr := if v.getLsbD 9 then false else s.status.werr
            fovr := if v.getLsbD 10 then false else s.status.fovr } }

/-- A write to `CTRL` while idle sets IE, RNGSRC and RCHK, and empties `RNGQ` where bit 3 is 1; a read gives the three
fields back, with RNGFLUSH and the reserved bits 0 (R28). -/
def Obligations.ControlRegister : Prop :=
  ∀ (s : State) (v : Word) (rest : List Turn), s.eng = .idle →
    ∃ t, step { s with turns := .host (.write (s.cfg.base + 0x004) 4 v) :: .host (.read (s.cfg.base + 0x004) 4) :: rest } =
        .next { t with turns := .host (.read (s.cfg.base + 0x004) 4) :: rest } ∧
      t = { s with
        turns := rest
        resp := some .accepted
        ctrl := ⟨v.getLsbD 0, if v.getLsbD 1 then .fifo else .trng, v.getLsbD 2⟩
        rng := { s.rng with queue := if v.getLsbD 3 then [] else s.rng.queue } } ∧
      step { t with turns := .host (.read (s.cfg.base + 0x004) 4) :: rest } =
        .next { t with turns := rest, resp := some (.data (v &&& 7)) }

/-- Word `j` of `Ri` (R66): while idle, the word written is read back, and every other word of the eight registers reads
as before; no other state changes. Premise: `j < W`. -/
def Obligations.BigRegisterWordReadsBack : Prop :=
  ∀ (s : State) (i : Fin 8) (j : Nat) (v : Word) (rest : List Turn), s.cfg.wf = true → s.eng = .idle → j < s.cfg.words →
    ∃ x, step { s with turns := .host (.write (s.cfg.base + (0x1000 + 0x200 * i.val + 4 * j)) 4 v) :: rest } =
        .next { s with turns := rest, resp := some .accepted, regs := s.regs.set i x } ∧
      busRead { s with regs := s.regs.set i x } (0x1000 + 0x200 * i.val + 4 * j) 4 = .ok v ∧
      ∀ off width, off ≠ 0x1000 + 0x200 * i.val + 4 * j →
        busRead { s with regs := s.regs.set i x } off width = busRead s off width

/-- The host's `ldbig` (R102): its `W` accesses load any value below `2^OPW` into `Ri`, least significant word first
(R68), and change nothing else. -/
def Obligations.LdbigLoadsTheValue : Prop :=
  ∀ (s : State) (i : Fin 8) (v : Nat) (rest : List Turn), s.cfg.wf = true → s.eng = .idle → s.regs[i] < 2 ^ s.cfg.opw →
    v < 2 ^ s.cfg.opw →
    steps s.cfg.words { s with turns := ldbig s.cfg i v ++ rest } =
      .next { s with turns := rest, resp := some .accepted, regs := s.regs.set i v }

/-- A write to `RNG_DATA` while idle appends the four bytes of the word, most significant first, if at least four places
are free, else it appends nothing and sets FOVR; while busy it appends nothing and sets WERR (R41). -/
def Obligations.RandomFifoPush : Prop :=
  ∀ (s : State) (v : Word) (rest : List Turn),
    (s.eng = .idle → s.rng.queue.length + 4 ≤ 4 * s.cfg.fifoDepth →
      step { s with turns := .host (.write (s.cfg.base + 0x024) 4 v) :: rest } =
        .next { s with
          turns := rest
          resp := some .accepted
          rng :=
            { s.rng with
              queue := s.rng.queue ++ [BitVec.ofNat 8 (v.toNat / 2 ^ 24), BitVec.ofNat 8 (v.toNat / 2 ^ 16),
                BitVec.ofNat 8 (v.toNat / 2 ^ 8), BitVec.ofNat 8 v.toNat] } }) ∧
    (s.eng = .idle → 4 * s.cfg.fifoDepth < s.rng.queue.length + 4 →
      step { s with turns := .host (.write (s.cfg.base + 0x024) 4 v) :: rest } =
        .next { s with turns := rest, resp := some .accepted, status := { s.status with fovr := true } }) ∧
    (s.eng ≠ .idle →
      step { s with turns := .host (.write (s.cfg.base + 0x024) 4 v) :: rest } =
        .next { s with turns := rest, resp := some .accepted, status := { s.status with werr := true } })

/-! ### Reset -/

/-- Reset (R44, R270): in one step, whatever was running, every piece of state takes the value of R44's table. What stays
is no state of the block (notes/assumptions/6.md). -/
def Obligations.ResetValues : Prop :=
  ∀ (s : State) (rest : List Turn), ∃ t, step { s with turns := .reset :: rest } = .next t ∧
    (∀ i : Fin 8, t.regs[i] = 0) ∧ t.key = ⟨0, 0, 0, 0, 0, 0⟩ ∧ t.keyValid = false ∧
    t.ctrlWord = 0x00000004 ∧ t.statusWord = 0x00000000 ∧ t.mrRoundsWord = 0x00000028 ∧ t.retryMax = 0 ∧
    t.attempts = 0 ∧ t.restarts = 0 ∧ t.errinfo = 0 ∧ t.rng.queue = [] ∧ t.rngLevelWord = 0 ∧ t.eng = .idle ∧
    t.irq = false ∧ t.idWord = s.idWord ∧ t.cfg = s.cfg ∧ t.turns = rest

/-! ### Modular arithmetic -/

/-- The repeated squaring of R111 gives "`(a^b) mod m` for every `m >= 1`". -/
def Obligations.RepeatedSquaringIsThePower : Prop :=
  ∀ a b m : Nat, 1 ≤ m → modExp a b m = a ^ b % m

/-- The extended Euclidean pipeline of R116 gives the inverse of R115: for `m >= 1` and coprime `a`, the unique `x` in
`[0, m)` with `a*x ≡ 1 (mod m)`. -/
def Obligations.ExtendedEuclidInverts : Prop :=
  ∀ a m : Nat, 1 ≤ m → Nat.gcd a m = 1 →
    modInverse a m < m ∧ a * modInverse a m % m = 1 % m ∧
    ∀ x, x < m → a * x % m = 1 % m → x = modInverse a m

/-- MODEXP (R110): a nonzero modulus gives `Rd = a^b mod m`, with the sources as they were even where `Rd` is one of them;
a zero modulus gives DIVZERO. Nothing else changes but the completion fields. -/
def Obligations.ModexpWritesThePower : Prop :=
  ∀ (s : State) (rd ra rb rc : RegField),
    (s.operand rc ≠ 0 →
      exec (.modexp rd ra rb rc) s =
        .next (ended .ok false 0
          { s with regs := s.regs.set (regIdx rd) (s.operand ra ^ s.operand rb % s.operand rc) })) ∧
    (s.operand rc = 0 → exec (.modexp rd ra rb rc) s = .next (ended .divzero false 0 s))

/-- MODINV (R115): for a coprime pair and `m >= 1` the unique inverse in `[0, m)` is written; a zero modulus gives DIVZERO
first, then a gcd other than 1 gives NOTCOPRIME with its low 32 bits, and neither writes `Rd`. -/
def Obligations.ModinvWritesTheInverse : Prop :=
  ∀ (s : State) (rd ra rb : RegField),
    (s.operand rb ≠ 0 → Nat.gcd (s.operand ra) (s.operand rb) = 1 →
      ∃ x, x < s.operand rb ∧ s.operand ra * x % s.operand rb = 1 % s.operand rb ∧
        (∀ y, y < s.operand rb → s.operand ra * y % s.operand rb = 1 % s.operand rb → y = x) ∧
        exec (.modinv rd ra rb) s = .next (ended .ok false 0 { s with regs := s.regs.set (regIdx rd) x })) ∧
    (s.operand rb = 0 → exec (.modinv rd ra rb) s = .next (ended .divzero false 0 s)) ∧
    (s.operand rb ≠ 0 → Nat.gcd (s.operand ra) (s.operand rb) ≠ 1 →
      exec (.modinv rd ra rb) s =
        .next (ended .notcoprime false (BitVec.ofNat 32 (Nat.gcd (s.operand ra) (s.operand rb))) s))

/-- GCD (R120): the value written is the greatest common divisor, with `gcd(a, 0) = a` and `gcd(0, 0) = 0`, and there is
no error. -/
def Obligations.GcdWritesTheDivisor : Prop :=
  ∀ (s : State) (rd ra rb : RegField), ∃ g,
    exec (.gcd rd ra rb) s = .next (ended .ok false 0 { s with regs := s.regs.set (regIdx rd) g }) ∧
    g ∣ s.operand ra ∧ g ∣ s.operand rb ∧ (∀ c, c ∣ s.operand ra → c ∣ s.operand rb → c ∣ g)

/-! ### Random draws and Miller-Rabin -/

/-- A draw of `len` bytes (R142, R143): whatever the source, an answer is below `256^len`; the TRNG always answers and
touches no byte; the host FIFO answers exactly when it holds `len` bytes, takes them off the front and reads them most
significant first; a draw that lacks bytes raises RNGEMPTY with `len` and removes nothing. -/
def Obligations.BytesAreDrawnBigEndian : Prop :=
  ∀ (len : Nat) (g : Rng),
    (∀ src v g', drawBytes src len g = (.ok v, g') → v < 256 ^ len) ∧
    (∃ v g', drawBytes .trng len g = (.ok v, g') ∧ g'.queue = g.queue) ∧
    (g.queue.length < len → drawBytes .fifo len g = (.error ⟨.rngempty, BitVec.ofNat 32 len⟩, g)) ∧
    (∀ taken left, g.queue = taken ++ left → taken.length = len →
      ∃ v, drawBytes .fifo len g = (.ok v, { g with queue := left }) ∧
        ∀ i b, taken[i]? = some b → v / 256 ^ (len - 1 - i) % 256 = b.toNat)

/-- Every base drawn lies in `[2, n-2]`, from either source (R144, R145), for odd `n >= 5`. -/
def Obligations.DrawnBaseIsInRange : Prop :=
  ∀ (src : RngSrc) (n a : Nat) (g g' : Rng), n % 2 = 1 → 5 ≤ n → drawBase src n g = (.ok a, g') → 2 ≤ a ∧ a ≤ n - 2

/-- One round of R151 is the strong-pseudoprime condition on the base, said without an algorithm. -/
def Obligations.RoundIsTheStrongTest : Prop :=
  ∀ n a : Nat, n % 2 = 1 → 5 ≤ n → (roundPasses n (oddPart n).1 (oddPart n).2 a = true ↔ PassesRound n a)

/-- The test without a draw, in any command and as MRTEST (R150, R152, R153, R155): an even `n` gives false, 2 among them;
`n = 1` and `n = 3` raise DOMAIN with the value; `k = 0` gives true for every odd `n >= 5`. No byte is drawn and no
register is written. -/
def Obligations.MrtestWithoutDraws : Prop :=
  (∀ (src : RngSrc) (n k : Nat) (g : Rng),
    (n % 2 = 0 → millerRabin src n k g = (.ok false, g)) ∧
    (n = 1 ∨ n = 3 → millerRabin src n k g = (.error ⟨.domain, BitVec.ofNat 32 n⟩, g)) ∧
    (n % 2 = 1 → 5 ≤ n → k = 0 → millerRabin src n k g = (.ok true, g))) ∧
  ∀ (s : State) (ra : RegField),
    (s.operand ra % 2 = 0 → exec (.mrtest ra) s = .next (ended .ok false 0 s)) ∧
    (s.operand ra = 1 ∨ s.operand ra = 3 →
      exec (.mrtest ra) s = .next (ended .domain false (BitVec.ofNat 32 (s.operand ra)) s)) ∧
    (s.operand ra % 2 = 1 → 5 ≤ s.operand ra → s.lat.k = 0 → exec (.mrtest ra) s = .next (ended .ok true 0 s))

/-- MRTEST with the host FIFO (R145, R150, R151): round `i` takes the `i`-th `ByteLen(n)` bytes. If the first `j` rounds
have their bytes and pass, then: with `j = k` RESULT is 1; a round `j` that has its bytes and fails ends the test with
RESULT 0 at once; a round `j` that lacks bytes ends it with RNGEMPTY and the number of bytes it needed, the bytes of the
rounds before it staying removed (R146). -/
def Obligations.MrtestWithHostFifo : Prop :=
  ∀ (s : State) (ra : RegField) (n B j : Nat), n = s.operand ra → B = byteLen n → n % 2 = 1 → 5 ≤ n →
    s.lat.src = .fifo →
    (∀ i, i < j → (i + 1) * B ≤ s.rng.queue.length ∧ PassesRound n (fifoBase n s.rng.queue i)) →
    (j = s.lat.k.toNat →
      exec (.mrtest ra) s =
        .next (ended .ok true 0 { s with rng := { s.rng with queue := s.rng.queue.drop (j * B) } })) ∧
    (j < s.lat.k.toNat → (j + 1) * B ≤ s.rng.queue.length → ¬ PassesRound n (fifoBase n s.rng.queue j) →
      exec (.mrtest ra) s =
        .next (ended .ok false 0 { s with rng := { s.rng with queue := s.rng.queue.drop ((j + 1) * B) } })) ∧
    (j < s.lat.k.toNat → s.rng.queue.length < (j + 1) * B →
      exec (.mrtest ra) s =
        .next (ended .rngempty false (BitVec.ofNat 32 B)
          { s with rng := { s.rng with queue := s.rng.queue.drop (j * B) } }))

/-- MRTEST with the TRNG (R144, R150, R151): the bases are free values in `[2, n-2]`; RESULT is 1 if all `k` of them pass
and 0 at the first that does not; the command always completes, and `RNGQ` is untouched. The numbering of the draws
(`Rng.draws`, which the command advances by the bases it drew) is the model's own, no state of the block (DESIGN CHOICE,
notes/assumptions/2.md). -/
def Obligations.MrtestWithTrng : Prop :=
  ∀ (s : State) (ra : RegField) (n j : Nat), n = s.operand ra → n % 2 = 1 → 5 ≤ n → s.lat.src = .trng →
    (∀ i, i < j → PassesRound n (trngBase n s.rng.draws i)) →
    (j = s.lat.k.toNat →
      exec (.mrtest ra) s = .next (ended .ok true 0 { s with rng := { s.rng with draws := s.rng.draws + j } })) ∧
    (j < s.lat.k.toNat → ¬ PassesRound n (trngBase n s.rng.draws j) →
      exec (.mrtest ra) s = .next (ended .ok false 0 { s with rng := { s.rng with draws := s.rng.draws + (j + 1) } }))

/-- "The test has no false negatives: a prime `n >= 5` passes every round for every base, so MRTEST gives true whatever
the draws" (R154): with the TRNG always, with the host FIFO unless its bytes run out. -/
def Obligations.PrimesAlwaysPass : Prop :=
  ∀ (s : State) (ra : RegField), Nat.Prime (s.operand ra) → 5 ≤ s.operand ra →
    (s.lat.src = .trng ∨ s.lat.k.toNat * byteLen (s.operand ra) ≤ s.rng.queue.length) →
    ∃ g, exec (.mrtest ra) s = .next (ended .ok true 0 { s with rng := g })

/-! ### Prime generation -/

/-- PRIMEGEN's length check (R156): `len = 0` or `8 * len > OPW` gives PARAM with the immediate, before any draw. -/
def Obligations.PrimegenRefusesTheLength : Prop :=
  ∀ (s : State) (rd : RegField) (imm : BitVec 16), imm.toNat = 0 ∨ s.cfg.opw < 8 * imm.toNat →
    exec (.primegen rd imm) s = .next (ended .param false (imm.setWidth 32) s)

/-- One attempt of PRIMEGEN with a legal length (R156, R157), case by case: the ceiling reached is EXHAUSTED, with nothing
drawn; a candidate draw that lacks bytes is RNGEMPTY and does not count; a drawn candidate counts, whatever follows. A
candidate that passes is written and the command completes; one that fails the test leaves the command running with
nothing written; an error of the test ends it. -/
def Obligations.PrimegenMakesOneAttempt : Prop :=
  ∀ (s : State) (rd : RegField) (imm : BitVec 16), imm.toNat ≠ 0 → 8 * imm.toNat ≤ s.cfg.opw →
    (s.lat.rmax ≠ 0 → s.lat.rmax ≤ s.attempts →
      exec (.primegen rd imm) s = .next (ended .exhausted false s.attempts s)) ∧
    ((s.lat.rmax = 0 ∨ s.attempts < s.lat.rmax) →
      (s.lat.src = .fifo → s.rng.queue.length < imm.toNat →
        exec (.primegen rd imm) s = .next (ended .rngempty false (imm.setWidth 32) s)) ∧
      (∀ c g, drawBytes s.lat.src imm.toNat s.rng = (.ok c, g) →
        (∀ g', millerRabin s.lat.src c s.lat.k.toNat g = (.ok true, g') →
          exec (.primegen rd imm) s =
            .next (ended .ok false 0
              { s with regs := s.regs.set (regIdx rd) c, rng := g', attempts := satInc s.attempts })) ∧
        (∀ g', millerRabin s.lat.src c s.lat.k.toNat g = (.ok false, g') →
          exec (.primegen rd imm) s = .next { s with rng := g', attempts := satInc s.attempts }) ∧
        (∀ e g', millerRabin s.lat.src c s.lat.k.toNat g = (.error e, g') →
          exec (.primegen rd imm) s =
            .next (ended e.code false e.info { s with rng := g', attempts := satInc s.attempts }))))

/-- In host-FIFO mode "PRIMEGEN completes after at most `|RNGQ at accept| div len + 1` engine steps, with a prime, PARAM,
DOMAIN, EXHAUSTED or RNGEMPTY" (R160), the engine going on by itself (an empty list of turns, the model's way to say it,
notes/assumptions/3.md; a host access in between changes nothing of it, `Obligations.HostCannotDisturbARunningCommand`);
the value it writes has at most `len` bytes and passed the test (R156), and on an error `Rd` is unchanged. -/
def Obligations.PrimegenEndsInFifoMode : Prop :=
  ∀ (s : State) (c : Word) (lat : Latch) (mic : Mic) (rd : RegField) (imm : BitVec 16),
    s.turns = [] → s.eng = .busy c lat mic → decode c = .ok (.primegen rd imm) → lat.src = .fifo →
    ∃ n t, n ≤ s.rng.queue.length / imm.toNat + 1 ∧ steps n s = .next t ∧ t.eng = .idle ∧ t.status.done = true ∧
      ((t.status.err = .ok ∧ ∃ v g, v < 256 ^ imm.toNat ∧ millerRabin .fifo v lat.k.toNat g = (.ok true, t.rng) ∧
          t.regs = s.regs.set (regIdx rd) v) ∨
       (t.status.err ∈ [ErrCode.param, .domain, .exhausted, .rngempty] ∧ t.regs = s.regs))

/-- With a ceiling `c != 0`, at most `c` candidates are drawn (R157): every step keeps ATTEMPTS at or below the latched
ceiling while PRIMEGEN or KEYGEN runs. -/
def Obligations.EveryStepKeepsTheCeiling : Prop :=
  ∀ s t : State, s.CeilingKept → step s = .next t → t.CeilingKept

/-! ### Key generation -/

/-- KEYGEN's length check (R172): `len = L div 16` is 0, or `16 * len > OPW`, gives PARAM with `L`, before any draw. -/
def Obligations.KeygenRefusesTheLength : Prop :=
  ∀ (s : State) (imm : BitVec 16), imm.toNat / 16 = 0 ∨ s.cfg.opw < 16 * (imm.toNat / 16) →
    exec (.keygen imm) s = .next (ended .param false (imm.setWidth 32) s)

/-- One attempt of KEYGEN with a legal length (R171), where the candidate `c` passes the test: in phase `GenP` it is kept
as `p` and phase `GenQ` begins; in phase `GenQ`, where `p` and `q = c` differ and `gcd(65537, phi) = 1`, all six key-bank
registers and KEYVALID are written in that step and the command completes (R174), with `d` the inverse of `e`; where `p =
q` or the gcd is not 1, RESTARTS counts and the command goes on in phase `GenP` (R173). -/
def Obligations.KeygenMakesOneAttempt : Prop :=
  ∀ (s : State) (w : Word) (lat : Latch) (mic : Mic) (imm : BitVec 16) (c : Nat) (g g' : Rng),
    imm.toNat / 16 ≠ 0 → 16 * (imm.toNat / 16) ≤ s.cfg.opw → s.eng = .busy w lat mic →
    (lat.rmax = 0 ∨ s.attempts < lat.rmax) →
    drawBytes lat.src (imm.toNat / 16) s.rng = (.ok c, g) → millerRabin lat.src c lat.k.toNat g = (.ok true, g') →
    (mic = .genP →
      exec (.keygen imm) s =
        .next { s with rng := g', attempts := satInc s.attempts, eng := .busy w lat (.genQ c) }) ∧
    (∀ p, mic = .genQ p → p ≠ c → 5 ≤ p → Nat.gcd 65537 ((p - 1) * (c - 1)) = 1 →
      ∃ d, d < (p - 1) * (c - 1) ∧ 65537 * d % ((p - 1) * (c - 1)) = 1 ∧
        exec (.keygen imm) s =
          .next (ended .ok false 0
            { s with
              rng := g'
              attempts := satInc s.attempts
              key := ⟨p, c, p * c, (p - 1) * (c - 1), 65537, d⟩
              keyValid := true })) ∧
    (∀ p, mic = .genQ p → p = c ∨ Nat.gcd 65537 ((p - 1) * (c - 1)) ≠ 1 →
      exec (.keygen imm) s =
        .next { s with
          rng := g'
          attempts := satInc s.attempts
          restarts := satInc s.restarts
          eng := .busy w lat .genP })

/-- One attempt of KEYGEN that finds nothing (R157, R171): the ceiling reached is EXHAUSTED; a candidate draw that lacks
bytes is RNGEMPTY; a candidate that fails the test leaves the command running in the same phase; an error of the test ends
it. The key bank and KEYVALID stay. -/
def Obligations.KeygenAttemptThatFindsNothing : Prop :=
  ∀ (s : State) (imm : BitVec 16), imm.toNat / 16 ≠ 0 → 16 * (imm.toNat / 16) ≤ s.cfg.opw →
    (s.lat.rmax ≠ 0 → s.lat.rmax ≤ s.attempts →
      exec (.keygen imm) s = .next (ended .exhausted false s.attempts s)) ∧
    ((s.lat.rmax = 0 ∨ s.attempts < s.lat.rmax) →
      (s.lat.src = .fifo → s.rng.queue.length < imm.toNat / 16 →
        exec (.keygen imm) s = .next (ended .rngempty false (BitVec.ofNat 32 (imm.toNat / 16)) s)) ∧
      (∀ c g, drawBytes s.lat.src (imm.toNat / 16) s.rng = (.ok c, g) →
        (∀ g', millerRabin s.lat.src c s.lat.k.toNat g = (.ok false, g') →
          exec (.keygen imm) s = .next { s with rng := g', attempts := satInc s.attempts }) ∧
        (∀ e g', millerRabin s.lat.src c s.lat.k.toNat g = (.error e, g') →
          exec (.keygen imm) s =
            .next (ended e.code false e.info { s with rng := g', attempts := satInc s.attempts }))))

/-- In host-FIFO mode KEYGEN always completes, "because each attempt removes at least `len` bytes" (R177): after at most
`|RNGQ| div len + 1` engine steps, with the engine going on by itself (an empty list of turns, the model's way to say it,
notes/assumptions/3.md), with KEYVALID 1 or one of the errors of R170; on an error the key bank and KEYVALID are
unchanged. Which key pair a success commits is `Obligations.KeygenMakesOneAttempt`. -/
def Obligations.KeygenEndsInFifoMode : Prop :=
  ∀ (s : State) (c : Word) (lat : Latch) (mic : Mic) (imm : BitVec 16),
    s.turns = [] → s.eng = .busy c lat mic → decode c = .ok (.keygen imm) → lat.src = .fifo →
    ∃ n t, n ≤ s.rng.queue.length / (imm.toNat / 16) + 1 ∧ steps n s = .next t ∧ t.eng = .idle ∧
      t.status.done = true ∧
      ((t.status.err = .ok ∧ t.keyValid = true) ∨
       (t.status.err ∈ [ErrCode.param, .domain, .exhausted, .rngempty] ∧ t.key = s.key ∧ t.keyValid = s.keyValid))

/-- "Only the commit of a successful KEYGEN writes" the key bank (R24), and nothing else writes KEYVALID (R25), but reset
(R44): whatever the step, if it changes either, it is a reset, or the engine's step of a KEYGEN in phase `GenQ`, which
then completes without error. -/
def Obligations.OnlyKeygenAndResetWriteTheKey : Prop :=
  ∀ s t : State, step s = .next t → (t.key ≠ s.key ∨ t.keyValid ≠ s.keyValid) →
    (∃ rest, s.turns = .reset :: rest) ∨
    ((s.turns = [] ∨ ∃ rest, s.turns = .engine :: rest) ∧
      (∃ c lat p imm, s.eng = .busy c lat (.genQ p) ∧ decode c = .ok (.keygen imm) ∧ t.key.p = p) ∧
      t.eng = .idle ∧ t.status.err = .ok ∧ t.keyValid = true)

/-! ### The transform -/

/-- ENCRYPT (R190 to R192), with a valid key pair: without one NOKEY; with the latched range check on, an input of at
least `KP.N` is RANGE; else `Rd = m^e mod n`, an input of at least `n` reduced silently. An error writes no register. -/
def Obligations.EncryptWritesThePower : Prop :=
  ∀ (s : State) (rd ra : RegField),
    (s.keyValid = false → exec (.encrypt rd ra) s = .next (ended .nokey false 0 s)) ∧
    (s.keyValid = true → s.lat.rchk = true → s.key.n ≤ s.operand ra →
      exec (.encrypt rd ra) s = .next (ended .range false 0 s)) ∧
    (s.keyValid = true → s.key.Valid → (s.lat.rchk = false ∨ s.operand ra < s.key.n) →
      exec (.encrypt rd ra) s =
        .next (ended .ok false 0 { s with regs := s.regs.set (regIdx rd) (s.operand ra ^ 65537 % s.key.n) }))

/-- DECRYPT (R195, R191, R192), with a valid key pair: as ENCRYPT with the exponent `KP.D`. -/
def Obligations.DecryptWritesThePower : Prop :=
  ∀ (s : State) (rd ra : RegField),
    (s.keyValid = false → exec (.decrypt rd ra) s = .next (ended .nokey false 0 s)) ∧
    (s.keyValid = true → s.lat.rchk = true → s.key.n ≤ s.operand ra →
      exec (.decrypt rd ra) s = .next (ended .range false 0 s)) ∧
    (s.keyValid = true → s.key.Valid → (s.lat.rchk = false ∨ s.operand ra < s.key.n) →
      exec (.decrypt rd ra) s =
        .next (ended .ok false 0 { s with regs := s.regs.set (regIdx rd) (s.operand ra ^ s.key.d % s.key.n) }))

/-- Round trip (R197): "When `KP.P` and `KP.Q` are prime, for every `m` with `0 <= m < KP.N`, DECRYPT of the result of
ENCRYPT of `m` gives `m`", the second command being accepted after the first has completed. -/
def Obligations.DecryptUndoesEncrypt : Prop :=
  ∀ (s : State) (rd ra rd' : RegField), s.keyValid = true → s.key.Valid → Nat.Prime s.key.p → Nat.Prime s.key.q →
    s.operand ra < s.key.n →
    ∃ t u, exec (.encrypt rd ra) s = .next t ∧ t.status.err = .ok ∧
      exec (.decrypt rd' rd) (t.accept (encode (.decrypt rd' rd))) = .next u ∧ u.status.err = .ok ∧
      u.operand rd' = s.operand ra

/-! ### NOP, frames, the invariant -/

/-- NOP (R220) completes with OK and RESULT 0, and changes nothing else. -/
def Obligations.NopOnlyCompletes : Prop :=
  ∀ s : State, exec .nop s = .next (ended .ok false 0 s)

/-- The frame of MODEXP, MODINV, GCD, ENCRYPT and DECRYPT, whatever their outcome: every register but `Rd`, the key bank
and KEYVALID, CTRL, MR_ROUNDS, RETRY_MAX, ATTEMPTS, RESTARTS, the random sources and the sticky STATUS bits are
unchanged, and every word of the window but those of `Rd`, STATUS and ERRINFO reads as before. -/
def Obligations.FrameOfTheRegisterCommands : Prop :=
  ∀ (s t : State) (i : Instr) (rd : Fin 8),
    (match i with
      | .modexp _ _ _ _ => True
      | .modinv _ _ _ => True
      | .gcd _ _ _ => True
      | .encrypt _ _ => True
      | .decrypt _ _ => True
      | _ => False) →
    dest i = some rd → exec i s = .next t →
    (∀ j : Fin 8, j ≠ rd → t.regs[j] = s.regs[j]) ∧ t.key = s.key ∧ t.keyValid = s.keyValid ∧ t.ctrl = s.ctrl ∧
    t.mrRounds = s.mrRounds ∧ t.retryMax = s.retryMax ∧ t.attempts = s.attempts ∧ t.restarts = s.restarts ∧
    t.rng = s.rng ∧ t.status.ovr = s.status.ovr ∧ t.status.werr = s.status.werr ∧ t.status.fovr = s.status.fovr ∧
    t.cfg = s.cfg ∧ t.turns = s.turns ∧ t.resp = s.resp ∧
    ∀ off width, off ≠ 0x008 → off ≠ 0x020 →
      ¬ (0x1000 + 0x200 * rd.val ≤ off ∧ off < 0x1000 + 0x200 * rd.val + 0x200) →
      busRead t off width = busRead s off width

/-- The frame of the commands that draw, whatever their outcome: MRTEST and KEYGEN write no big register and PRIMEGEN only
`Rd`; MRTEST and PRIMEGEN leave the key bank, KEYVALID and RESTARTS, MRTEST leaves ATTEMPTS; CTRL, MR_ROUNDS, RETRY_MAX
and the sticky STATUS bits are unchanged; bytes only leave the front of `RNGQ`; and every word of the window reads as
before but STATUS, ERRINFO, RNG_LEVEL, ATTEMPTS (PRIMEGEN, KEYGEN), RESTARTS (KEYGEN), the words of `Rd` (PRIMEGEN) and
the key bank (KEYGEN). -/
def Obligations.FrameOfTheDrawingCommands : Prop :=
  ∀ (s t : State) (i : Instr),
    (match i with
      | .mrtest _ => True
      | .primegen _ _ => True
      | .keygen _ => True
      | _ => False) →
    exec i s = .next t →
    (∀ j : Fin 8, dest i ≠ some j → t.regs[j] = s.regs[j]) ∧
    ((∀ imm, i ≠ .keygen imm) → t.key = s.key ∧ t.keyValid = s.keyValid ∧ t.restarts = s.restarts) ∧
    ((∃ ra, i = .mrtest ra) → t.attempts = s.attempts) ∧
    t.ctrl = s.ctrl ∧ t.mrRounds = s.mrRounds ∧ t.retryMax = s.retryMax ∧ t.status.ovr = s.status.ovr ∧
    t.status.werr = s.status.werr ∧ t.status.fovr = s.status.fovr ∧ t.cfg = s.cfg ∧ t.turns = s.turns ∧
    t.resp = s.resp ∧ (∃ n, t.rng.queue = s.rng.queue.drop n) ∧
    ∀ off width, off ≠ 0x008 → off ≠ 0x020 → off ≠ 0x028 →
      ((∃ ra, i = .mrtest ra) ∨ off ≠ 0x018) →
      ((∀ imm, i ≠ .keygen imm) ∨ (off ≠ 0x01C ∧ ¬ (0x2000 ≤ off ∧ off < 0x2C00))) →
      (∀ rd : Fin 8, dest i = some rd → ¬ (0x1000 + 0x200 * rd.val ≤ off ∧ off < 0x1000 + 0x200 * rd.val + 0x200)) →
      busRead t off width = busRead s off width

/-- Every step, of the engine, of a host, of reset, keeps the state legal: every big register and key-bank register below
`2^OPW`, so that no result wraps or is truncated (R125, R172), `RNGQ` within its capacity, and the KeyPair's invariants
while KEYVALID is 1 (R26). -/
def Obligations.EveryStepKeepsTheInvariant : Prop :=
  ∀ s t : State, s.Inv → step s = .next t → t.Inv

/-- The state after reset is legal, for every choice of the parameters. -/
def Obligations.ResetMeetsTheInvariant : Prop :=
  ∀ c : Params, c.wf = true → (State.resetWith c).Inv ∧ (State.resetWith c).CeilingKept

/-! ### The interrupt -/

/-- The interrupt (R43, R240) is the level `CTRL.IE and STATUS.DONE` in every state, so no sticky bit raises it; it falls
with a write of 1 to `STATUS[1]`, with the accept of a command, and with a write of `CTRL` that has IE = 0. -/
def Obligations.InterruptIsALevel : Prop :=
  ∀ s : State,
    (s.irq = true ↔ s.ctrl.ie = true ∧ s.status.done = true) ∧
    ∀ (v : Word) (rest : List Turn),
      (v.getLsbD 1 = true →
        ∃ t, step { s with turns := .host (.write (s.cfg.base + 0x008) 4 v) :: rest } = .next t ∧ t.irq = false) ∧
      (s.eng = .idle →
        ∃ t, step { s with turns := .host (.write (s.cfg.base + 0x00C) 4 v) :: rest } = .next t ∧ t.irq = false) ∧
      (v.getLsbD 0 = false →
        ∃ t, step { s with turns := .host (.write (s.cfg.base + 0x004) 4 v) :: rest } = .next t ∧ t.irq = false)
end

