-- ==== Sys2Proof/Laws/State.lean ====
section
/-! SUPPORT. One lemma per field per update of the state, so that no proof unfolds a record update. -/

namespace Sys2Proof.Machine

@[simp] theorem State.setReg_regs (s : State) (i : Fin 8) (v : Nat) : (s.setReg i v).regs = s.regs.set i v := rfl
@[simp] theorem State.setReg_key (s : State) (i : Fin 8) (v : Nat) : (s.setReg i v).key = s.key := rfl
@[simp] theorem State.setReg_keyValid (s : State) (i : Fin 8) (v : Nat) : (s.setReg i v).keyValid = s.keyValid := rfl
@[simp] theorem State.setReg_ctrl (s : State) (i : Fin 8) (v : Nat) : (s.setReg i v).ctrl = s.ctrl := rfl
@[simp] theorem State.setReg_status (s : State) (i : Fin 8) (v : Nat) : (s.setReg i v).status = s.status := rfl
@[simp] theorem State.setReg_mrRounds (s : State) (i : Fin 8) (v : Nat) : (s.setReg i v).mrRounds = s.mrRounds := rfl
@[simp] theorem State.setReg_retryMax (s : State) (i : Fin 8) (v : Nat) : (s.setReg i v).retryMax = s.retryMax := rfl
@[simp] theorem State.setReg_attempts (s : State) (i : Fin 8) (v : Nat) : (s.setReg i v).attempts = s.attempts := rfl
@[simp] theorem State.setReg_restarts (s : State) (i : Fin 8) (v : Nat) : (s.setReg i v).restarts = s.restarts := rfl
@[simp] theorem State.setReg_errinfo (s : State) (i : Fin 8) (v : Nat) : (s.setReg i v).errinfo = s.errinfo := rfl
@[simp] theorem State.setReg_rng (s : State) (i : Fin 8) (v : Nat) : (s.setReg i v).rng = s.rng := rfl
@[simp] theorem State.setReg_eng (s : State) (i : Fin 8) (v : Nat) : (s.setReg i v).eng = s.eng := rfl
@[simp] theorem State.setReg_cfg (s : State) (i : Fin 8) (v : Nat) : (s.setReg i v).cfg = s.cfg := rfl
@[simp] theorem State.setReg_turns (s : State) (i : Fin 8) (v : Nat) : (s.setReg i v).turns = s.turns := rfl
@[simp] theorem State.setReg_resp (s : State) (i : Fin 8) (v : Nat) : (s.setReg i v).resp = s.resp := rfl

@[simp] theorem State.finish_regs (s : State) (code : ErrCode) (res : Bool) (info : Word) : (s.finish code res info).regs = s.regs := rfl
@[simp] theorem State.finish_key (s : State) (code : ErrCode) (res : Bool) (info : Word) : (s.finish code res info).key = s.key := rfl
@[simp] theorem State.finish_keyValid (s : State) (code : ErrCode) (res : Bool) (info : Word) : (s.finish code res info).keyValid = s.keyValid := rfl
@[simp] theorem State.finish_ctrl (s : State) (code : ErrCode) (res : Bool) (info : Word) : (s.finish code res info).ctrl = s.ctrl := rfl
@[simp] theorem State.finish_status (s : State) (code : ErrCode) (res : Bool) (info : Word) : (s.finish code res info).status = { s.status with err := code, result := res, done := true } := rfl
@[simp] theorem State.finish_mrRounds (s : State) (code : ErrCode) (res : Bool) (info : Word) : (s.finish code res info).mrRounds = s.mrRounds := rfl
@[simp] theorem State.finish_retryMax (s : State) (code : ErrCode) (res : Bool) (info : Word) : (s.finish code res info).retryMax = s.retryMax := rfl
@[simp] theorem State.finish_attempts (s : State) (code : ErrCode) (res : Bool) (info : Word) : (s.finish code res info).attempts = s.attempts := rfl
@[simp] theorem State.finish_restarts (s : State) (code : ErrCode) (res : Bool) (info : Word) : (s.finish code res info).restarts = s.restarts := rfl
@[simp] theorem State.finish_errinfo (s : State) (code : ErrCode) (res : Bool) (info : Word) : (s.finish code res info).errinfo = info := rfl
@[simp] theorem State.finish_rng (s : State) (code : ErrCode) (res : Bool) (info : Word) : (s.finish code res info).rng = s.rng := rfl
@[simp] theorem State.finish_eng (s : State) (code : ErrCode) (res : Bool) (info : Word) : (s.finish code res info).eng = .idle := rfl
@[simp] theorem State.finish_cfg (s : State) (code : ErrCode) (res : Bool) (info : Word) : (s.finish code res info).cfg = s.cfg := rfl
@[simp] theorem State.finish_turns (s : State) (code : ErrCode) (res : Bool) (info : Word) : (s.finish code res info).turns = s.turns := rfl
@[simp] theorem State.finish_resp (s : State) (code : ErrCode) (res : Bool) (info : Word) : (s.finish code res info).resp = s.resp := rfl

@[simp] theorem State.raise_regs (s : State) (e : CmdError) : (s.raise e).regs = s.regs := rfl
@[simp] theorem State.raise_key (s : State) (e : CmdError) : (s.raise e).key = s.key := rfl
@[simp] theorem State.raise_keyValid (s : State) (e : CmdError) : (s.raise e).keyValid = s.keyValid := rfl
@[simp] theorem State.raise_ctrl (s : State) (e : CmdError) : (s.raise e).ctrl = s.ctrl := rfl
@[simp] theorem State.raise_status (s : State) (e : CmdError) : (s.raise e).status = { s.status with err := e.code, result := false, done := true } := rfl
@[simp] theorem State.raise_mrRounds (s : State) (e : CmdError) : (s.raise e).mrRounds = s.mrRounds := rfl
@[simp] theorem State.raise_retryMax (s : State) (e : CmdError) : (s.raise e).retryMax = s.retryMax := rfl
@[simp] theorem State.raise_attempts (s : State) (e : CmdError) : (s.raise e).attempts = s.attempts := rfl
@[simp] theorem State.raise_restarts (s : State) (e : CmdError) : (s.raise e).restarts = s.restarts := rfl
@[simp] theorem State.raise_errinfo (s : State) (e : CmdError) : (s.raise e).errinfo = e.info := rfl
@[simp] theorem State.raise_rng (s : State) (e : CmdError) : (s.raise e).rng = s.rng := rfl
@[simp] theorem State.raise_eng (s : State) (e : CmdError) : (s.raise e).eng = .idle := rfl
@[simp] theorem State.raise_cfg (s : State) (e : CmdError) : (s.raise e).cfg = s.cfg := rfl
@[simp] theorem State.raise_turns (s : State) (e : CmdError) : (s.raise e).turns = s.turns := rfl
@[simp] theorem State.raise_resp (s : State) (e : CmdError) : (s.raise e).resp = s.resp := rfl

@[simp] theorem State.accept_regs (s : State) (c : Word) : (s.accept c).regs = s.regs := rfl
@[simp] theorem State.accept_key (s : State) (c : Word) : (s.accept c).key = s.key := rfl
@[simp] theorem State.accept_keyValid (s : State) (c : Word) : (s.accept c).keyValid = s.keyValid := rfl
@[simp] theorem State.accept_ctrl (s : State) (c : Word) : (s.accept c).ctrl = s.ctrl := rfl
@[simp] theorem State.accept_status (s : State) (c : Word) : (s.accept c).status = { s.status with done := false, err := .ok, result := false } := rfl
@[simp] theorem State.accept_mrRounds (s : State) (c : Word) : (s.accept c).mrRounds = s.mrRounds := rfl
@[simp] theorem State.accept_retryMax (s : State) (c : Word) : (s.accept c).retryMax = s.retryMax := rfl
@[simp] theorem State.accept_attempts (s : State) (c : Word) : (s.accept c).attempts = if isKeygen c || isPrimegen c then 0 else s.attempts := rfl
@[simp] theorem State.accept_restarts (s : State) (c : Word) : (s.accept c).restarts = if isKeygen c then 0 else s.restarts := rfl
@[simp] theorem State.accept_errinfo (s : State) (c : Word) : (s.accept c).errinfo = 0 := rfl
@[simp] theorem State.accept_rng (s : State) (c : Word) : (s.accept c).rng = s.rng := rfl
@[simp] theorem State.accept_eng (s : State) (c : Word) : (s.accept c).eng = .busy c s.liveLatch (mic0 c) := rfl
@[simp] theorem State.accept_cfg (s : State) (c : Word) : (s.accept c).cfg = s.cfg := rfl
@[simp] theorem State.accept_turns (s : State) (c : Word) : (s.accept c).turns = s.turns := rfl
@[simp] theorem State.accept_resp (s : State) (c : Word) : (s.accept c).resp = s.resp := rfl

@[simp] theorem State.commit_ctrl (s : State) (c : Commit) : (s.commit c).ctrl = s.ctrl := by cases c <;> rfl
@[simp] theorem State.commit_status (s : State) (c : Commit) : (s.commit c).status = s.status := by cases c <;> rfl
@[simp] theorem State.commit_mrRounds (s : State) (c : Commit) : (s.commit c).mrRounds = s.mrRounds := by cases c <;> rfl
@[simp] theorem State.commit_retryMax (s : State) (c : Commit) : (s.commit c).retryMax = s.retryMax := by cases c <;> rfl
@[simp] theorem State.commit_attempts (s : State) (c : Commit) : (s.commit c).attempts = s.attempts := by cases c <;> rfl
@[simp] theorem State.commit_restarts (s : State) (c : Commit) : (s.commit c).restarts = s.restarts := by cases c <;> rfl
@[simp] theorem State.commit_errinfo (s : State) (c : Commit) : (s.commit c).errinfo = s.errinfo := by cases c <;> rfl
@[simp] theorem State.commit_rng (s : State) (c : Commit) : (s.commit c).rng = s.rng := by cases c <;> rfl
@[simp] theorem State.commit_eng (s : State) (c : Commit) : (s.commit c).eng = s.eng := by cases c <;> rfl
@[simp] theorem State.commit_cfg (s : State) (c : Commit) : (s.commit c).cfg = s.cfg := by cases c <;> rfl
@[simp] theorem State.commit_turns (s : State) (c : Commit) : (s.commit c).turns = s.turns := by cases c <;> rfl
@[simp] theorem State.commit_resp (s : State) (c : Commit) : (s.commit c).resp = s.resp := by cases c <;> rfl

@[simp] theorem State.setMic_regs (s : State) (m : Mic) : (s.setMic m).regs = s.regs := by
  unfold State.setMic
  split <;> rfl
@[simp] theorem State.setMic_key (s : State) (m : Mic) : (s.setMic m).key = s.key := by
  unfold State.setMic
  split <;> rfl
@[simp] theorem State.setMic_keyValid (s : State) (m : Mic) : (s.setMic m).keyValid = s.keyValid := by
  unfold State.setMic
  split <;> rfl
@[simp] theorem State.setMic_ctrl (s : State) (m : Mic) : (s.setMic m).ctrl = s.ctrl := by
  unfold State.setMic
  split <;> rfl
@[simp] theorem State.setMic_status (s : State) (m : Mic) : (s.setMic m).status = s.status := by
  unfold State.setMic
  split <;> rfl
@[simp] theorem State.setMic_mrRounds (s : State) (m : Mic) : (s.setMic m).mrRounds = s.mrRounds := by
  unfold State.setMic
  split <;> rfl
@[simp] theorem State.setMic_retryMax (s : State) (m : Mic) : (s.setMic m).retryMax = s.retryMax := by
  unfold State.setMic
  split <;> rfl
@[simp] theorem State.setMic_attempts (s : State) (m : Mic) : (s.setMic m).attempts = s.attempts := by
  unfold State.setMic
  split <;> rfl
@[simp] theorem State.setMic_restarts (s : State) (m : Mic) : (s.setMic m).restarts = s.restarts := by
  unfold State.setMic
  split <;> rfl
@[simp] theorem State.setMic_errinfo (s : State) (m : Mic) : (s.setMic m).errinfo = s.errinfo := by
  unfold State.setMic
  split <;> rfl
@[simp] theorem State.setMic_rng (s : State) (m : Mic) : (s.setMic m).rng = s.rng := by
  unfold State.setMic
  split <;> rfl
@[simp] theorem State.setMic_cfg (s : State) (m : Mic) : (s.setMic m).cfg = s.cfg := by
  unfold State.setMic
  split <;> rfl
@[simp] theorem State.setMic_turns (s : State) (m : Mic) : (s.setMic m).turns = s.turns := by
  unfold State.setMic
  split <;> rfl
@[simp] theorem State.setMic_resp (s : State) (m : Mic) : (s.setMic m).resp = s.resp := by
  unfold State.setMic
  split <;> rfl

@[simp] theorem State.setWerr_regs (s : State) : (s.setWerr).regs = s.regs := rfl
@[simp] theorem State.setWerr_key (s : State) : (s.setWerr).key = s.key := rfl
@[simp] theorem State.setWerr_keyValid (s : State) : (s.setWerr).keyValid = s.keyValid := rfl
@[simp] theorem State.setWerr_ctrl (s : State) : (s.setWerr).ctrl = s.ctrl := rfl
@[simp] theorem State.setWerr_status (s : State) : (s.setWerr).status = { s.status with werr := true } := rfl
@[simp] theorem State.setWerr_mrRounds (s : State) : (s.setWerr).mrRounds = s.mrRounds := rfl
@[simp] theorem State.setWerr_retryMax (s : State) : (s.setWerr).retryMax = s.retryMax := rfl
@[simp] theorem State.setWerr_attempts (s : State) : (s.setWerr).attempts = s.attempts := rfl
@[simp] theorem State.setWerr_restarts (s : State) : (s.setWerr).restarts = s.restarts := rfl
@[simp] theorem State.setWerr_errinfo (s : State) : (s.setWerr).errinfo = s.errinfo := rfl
@[simp] theorem State.setWerr_rng (s : State) : (s.setWerr).rng = s.rng := rfl
@[simp] theorem State.setWerr_eng (s : State) : (s.setWerr).eng = s.eng := rfl
@[simp] theorem State.setWerr_cfg (s : State) : (s.setWerr).cfg = s.cfg := rfl
@[simp] theorem State.setWerr_turns (s : State) : (s.setWerr).turns = s.turns := rfl
@[simp] theorem State.setWerr_resp (s : State) : (s.setWerr).resp = s.resp := rfl

@[simp] theorem State.writeStatus_regs (s : State) (v : Word) : (s.writeStatus v).regs = s.regs := rfl
@[simp] theorem State.writeStatus_key (s : State) (v : Word) : (s.writeStatus v).key = s.key := rfl
@[simp] theorem State.writeStatus_keyValid (s : State) (v : Word) : (s.writeStatus v).keyValid = s.keyValid := rfl
@[simp] theorem State.writeStatus_ctrl (s : State) (v : Word) : (s.writeStatus v).ctrl = s.ctrl := rfl
@[simp] theorem State.writeStatus_mrRounds (s : State) (v : Word) : (s.writeStatus v).mrRounds = s.mrRounds := rfl
@[simp] theorem State.writeStatus_retryMax (s : State) (v : Word) : (s.writeStatus v).retryMax = s.retryMax := rfl
@[simp] theorem State.writeStatus_attempts (s : State) (v : Word) : (s.writeStatus v).attempts = s.attempts := rfl
@[simp] theorem State.writeStatus_restarts (s : State) (v : Word) : (s.writeStatus v).restarts = s.restarts := rfl
@[simp] theorem State.writeStatus_errinfo (s : State) (v : Word) : (s.writeStatus v).errinfo = s.errinfo := rfl
@[simp] theorem State.writeStatus_rng (s : State) (v : Word) : (s.writeStatus v).rng = s.rng := rfl
@[simp] theorem State.writeStatus_eng (s : State) (v : Word) : (s.writeStatus v).eng = s.eng := rfl
@[simp] theorem State.writeStatus_cfg (s : State) (v : Word) : (s.writeStatus v).cfg = s.cfg := rfl
@[simp] theorem State.writeStatus_turns (s : State) (v : Word) : (s.writeStatus v).turns = s.turns := rfl
@[simp] theorem State.writeStatus_resp (s : State) (v : Word) : (s.writeStatus v).resp = s.resp := rfl

@[simp] theorem State.writeMrRounds_regs (s : State) (v : Word) : (s.writeMrRounds v).regs = s.regs := rfl
@[simp] theorem State.writeMrRounds_key (s : State) (v : Word) : (s.writeMrRounds v).key = s.key := rfl
@[simp] theorem State.writeMrRounds_keyValid (s : State) (v : Word) : (s.writeMrRounds v).keyValid = s.keyValid := rfl
@[simp] theorem State.writeMrRounds_ctrl (s : State) (v : Word) : (s.writeMrRounds v).ctrl = s.ctrl := rfl
@[simp] theorem State.writeMrRounds_status (s : State) (v : Word) : (s.writeMrRounds v).status = s.status := rfl
@[simp] theorem State.writeMrRounds_mrRounds (s : State) (v : Word) : (s.writeMrRounds v).mrRounds = v.setWidth 16 := rfl
@[simp] theorem State.writeMrRounds_retryMax (s : State) (v : Word) : (s.writeMrRounds v).retryMax = s.retryMax := rfl
@[simp] theorem State.writeMrRounds_attempts (s : State) (v : Word) : (s.writeMrRounds v).attempts = s.attempts := rfl
@[simp] theorem State.writeMrRounds_restarts (s : State) (v : Word) : (s.writeMrRounds v).restarts = s.restarts := rfl
@[simp] theorem State.writeMrRounds_errinfo (s : State) (v : Word) : (s.writeMrRounds v).errinfo = s.errinfo := rfl
@[simp] theorem State.writeMrRounds_rng (s : State) (v : Word) : (s.writeMrRounds v).rng = s.rng := rfl
@[simp] theorem State.writeMrRounds_eng (s : State) (v : Word) : (s.writeMrRounds v).eng = s.eng := rfl
@[simp] theorem State.writeMrRounds_cfg (s : State) (v : Word) : (s.writeMrRounds v).cfg = s.cfg := rfl
@[simp] theorem State.writeMrRounds_turns (s : State) (v : Word) : (s.writeMrRounds v).turns = s.turns := rfl
@[simp] theorem State.writeMrRounds_resp (s : State) (v : Word) : (s.writeMrRounds v).resp = s.resp := rfl

@[simp] theorem State.writeRetryMax_regs (s : State) (v : Word) : (s.writeRetryMax v).regs = s.regs := rfl
@[simp] theorem State.writeRetryMax_key (s : State) (v : Word) : (s.writeRetryMax v).key = s.key := rfl
@[simp] theorem State.writeRetryMax_keyValid (s : State) (v : Word) : (s.writeRetryMax v).keyValid = s.keyValid := rfl
@[simp] theorem State.writeRetryMax_ctrl (s : State) (v : Word) : (s.writeRetryMax v).ctrl = s.ctrl := rfl
@[simp] theorem State.writeRetryMax_status (s : State) (v : Word) : (s.writeRetryMax v).status = s.status := rfl
@[simp] theorem State.writeRetryMax_mrRounds (s : State) (v : Word) : (s.writeRetryMax v).mrRounds = s.mrRounds := rfl
@[simp] theorem State.writeRetryMax_retryMax (s : State) (v : Word) : (s.writeRetryMax v).retryMax = v := rfl
@[simp] theorem State.writeRetryMax_attempts (s : State) (v : Word) : (s.writeRetryMax v).attempts = s.attempts := rfl
@[simp] theorem State.writeRetryMax_restarts (s : State) (v : Word) : (s.writeRetryMax v).restarts = s.restarts := rfl
@[simp] theorem State.writeRetryMax_errinfo (s : State) (v : Word) : (s.writeRetryMax v).errinfo = s.errinfo := rfl
@[simp] theorem State.writeRetryMax_rng (s : State) (v : Word) : (s.writeRetryMax v).rng = s.rng := rfl
@[simp] theorem State.writeRetryMax_eng (s : State) (v : Word) : (s.writeRetryMax v).eng = s.eng := rfl
@[simp] theorem State.writeRetryMax_cfg (s : State) (v : Word) : (s.writeRetryMax v).cfg = s.cfg := rfl
@[simp] theorem State.writeRetryMax_turns (s : State) (v : Word) : (s.writeRetryMax v).turns = s.turns := rfl
@[simp] theorem State.writeRetryMax_resp (s : State) (v : Word) : (s.writeRetryMax v).resp = s.resp := rfl

@[simp] theorem State.rst_regs (s : State) : (s.rst).regs = Vector.replicate 8 0 := rfl
@[simp] theorem State.rst_key (s : State) : (s.rst).key = ⟨0, 0, 0, 0, 0, 0⟩ := rfl
@[simp] theorem State.rst_keyValid (s : State) : (s.rst).keyValid = false := rfl
@[simp] theorem State.rst_ctrl (s : State) : (s.rst).ctrl = ⟨false, .trng, true⟩ := rfl
@[simp] theorem State.rst_status (s : State) : (s.rst).status = ⟨false, false, .ok, false, false, false⟩ := rfl
@[simp] theorem State.rst_mrRounds (s : State) : (s.rst).mrRounds = 40 := rfl
@[simp] theorem State.rst_retryMax (s : State) : (s.rst).retryMax = 0 := rfl
@[simp] theorem State.rst_attempts (s : State) : (s.rst).attempts = 0 := rfl
@[simp] theorem State.rst_restarts (s : State) : (s.rst).restarts = 0 := rfl
@[simp] theorem State.rst_errinfo (s : State) : (s.rst).errinfo = 0 := rfl
@[simp] theorem State.rst_rng (s : State) : (s.rst).rng = ⟨[], s.rng.draws⟩ := rfl
@[simp] theorem State.rst_eng (s : State) : (s.rst).eng = .idle := rfl
@[simp] theorem State.rst_cfg (s : State) : (s.rst).cfg = s.cfg := rfl
@[simp] theorem State.rst_turns (s : State) : (s.rst).turns = s.turns := rfl
@[simp] theorem State.rst_resp (s : State) : (s.rst).resp = s.resp := rfl

/-! ### What the case-wise updates do -/

@[simp] theorem State.commit_nothing (s : State) : s.commit .nothing = s := rfl
@[simp] theorem State.commit_reg (s : State) (i : Fin 8) (v : Nat) : s.commit (.reg i v) = s.setReg i v := rfl
@[simp] theorem State.commit_keyPair (s : State) (k : KeyBank) :
    s.commit (.keyPair k) = { s with key := k, keyValid := true } := rfl
@[simp] theorem State.commit_result (s : State) (b : Bool) : s.commit (.result b) = s := rfl

@[simp] theorem Commit.res_nothing : Commit.nothing.res = false := rfl
@[simp] theorem Commit.res_reg (i : Fin 8) (v : Nat) : (Commit.reg i v).res = false := rfl
@[simp] theorem Commit.res_keyPair (k : KeyBank) : (Commit.keyPair k).res = false := rfl
@[simp] theorem Commit.res_result (b : Bool) : (Commit.result b).res = b := rfl

@[simp] theorem State.complete_ok (s : State) (c : Commit) : s.complete (.ok c) = (s.commit c).finish .ok c.res 0 := rfl
@[simp] theorem State.complete_error (s : State) (e : CmdError) : s.complete (.error e) = s.raise e := rfl

theorem State.busy_iff (s : State) : s.busy = true ↔ s.eng ≠ .idle := by
  unfold State.busy
  split <;> simp_all

theorem State.busy_eq_false_iff (s : State) : s.busy = false ↔ s.eng = .idle := by
  unfold State.busy
  split <;> simp_all

theorem State.busy_of_eng {s : State} {c : Word} {lat : Latch} {mic : Mic} (h : s.eng = .busy c lat mic) :
    s.busy = true := by
  simp [State.busy, h]

theorem State.lat_of_eng {s : State} {c : Word} {lat : Latch} {mic : Mic} (h : s.eng = .busy c lat mic) :
    s.lat = lat := by
  simp [State.lat, h]

theorem State.mic_of_eng {s : State} {c : Word} {lat : Latch} {mic : Mic} (h : s.eng = .busy c lat mic) :
    s.mic = mic := by
  simp [State.mic, h]

theorem State.setMic_of_eng {s : State} {c : Word} {lat : Latch} {mic : Mic} (h : s.eng = .busy c lat mic) (m : Mic) :
    s.setMic m = { s with eng := .busy c lat m } := by
  simp [State.setMic, h]

/-- A running command goes on running with a new microstate; an idle engine stays idle. -/
theorem State.setMic_eng_idle_iff (s : State) (m : Mic) : (s.setMic m).eng = .idle ↔ s.eng = .idle := by
  cases h : s.eng <;> simp [State.setMic, h]

/-- The register file after a write, read at any register. -/
theorem State.setReg_get (s : State) (i j : Fin 8) (v : Nat) :
    (s.setReg i v).regs[j] = if i = j then v else s.regs[j] := by
  simp [Vector.getElem_set, Fin.ext_iff]

end Sys2Proof.Machine
end

