-- ==== Sys2Proof/Laws/Ops.lean ====
section
/-! SUPPORT. What the shared operations do: words of big registers, bytes, the saturating counters. -/

namespace Sys2Proof.Machine

/-! ### Words of a big register -/

@[simp] theorem wordOf_toNat (x j : Nat) : (wordOf x j).toNat = x / 2 ^ (32 * j) % 2 ^ 32 := by
  simp [wordOf]

/-- The low part, the new word and the high part of `putWord`, each below its place. -/
theorem putWord_parts (x j : Nat) (v : Word) :
    ∃ lo hi, lo < 2 ^ (32 * j) ∧ lo = x % 2 ^ (32 * j) ∧ hi = x / 2 ^ (32 * j + 32) ∧
      putWord x j v = lo + 2 ^ (32 * j) * (v.toNat + 2 ^ 32 * hi) := by
  refine ⟨_, _, Nat.mod_lt _ (by positivity), rfl, rfl, ?_⟩
  unfold putWord
  rw [Nat.pow_add]
  ring

/-- The word written is read back. -/
theorem wordOf_putWord_same (x j : Nat) (v : Word) : wordOf (putWord x j v) j = v := by
  obtain ⟨lo, hi, hlo, -, -, e⟩ := putWord_parts x j v
  apply BitVec.eq_of_toNat_eq
  rw [wordOf_toNat, e, Nat.add_mul_div_left _ _ (by positivity), Nat.div_eq_of_lt hlo, Nat.zero_add,
    Nat.add_mul_mod_self_left, Nat.mod_eq_of_lt v.isLt]

/-- The quotient by `a`, modulo `m`, does not see a multiple of `a * (m * c)`. -/
theorem div_mod_of_mod (a m c y : Nat) : y % (a * (m * c)) / a % m = y / a % m := by
  rw [Nat.mod_mul_right_div_self, Nat.mod_mul_right_mod]

/-- What lies above word `j` is as before. -/
theorem putWord_div (x j : Nat) (v : Word) : putWord x j v / 2 ^ (32 * j + 32) = x / 2 ^ (32 * j + 32) := by
  obtain ⟨lo, hi, hlo, -, ehi, e⟩ := putWord_parts x j v
  have cut : ∀ y, y / 2 ^ (32 * j + 32) = y / 2 ^ (32 * j) / 2 ^ 32 := by
    intro y
    rw [Nat.pow_add, Nat.div_div_eq_div_mul]
  rw [cut (putWord x j v), e, Nat.add_mul_div_left _ _ (by positivity), Nat.div_eq_of_lt hlo, Nat.zero_add,
    Nat.add_mul_div_left _ _ (by positivity), Nat.div_eq_of_lt v.isLt, Nat.zero_add, ehi]

/-- What lies below word `j` is as before. -/
theorem putWord_mod (x j : Nat) (v : Word) : putWord x j v % 2 ^ (32 * j) = x % 2 ^ (32 * j) := by
  obtain ⟨lo, hi, hlo, elo, -, e⟩ := putWord_parts x j v
  rw [e, Nat.add_mul_mod_self_left, Nat.mod_eq_of_lt hlo, elo]

/-- Every other word is as before. -/
theorem wordOf_putWord_other (x j k : Nat) (v : Word) (h : k ≠ j) : wordOf (putWord x j v) k = wordOf x k := by
  apply BitVec.eq_of_toNat_eq
  rw [wordOf_toNat, wordOf_toNat]
  rcases Nat.lt_or_gt_of_ne h with hk | hk
  · obtain ⟨d, rfl⟩ := Nat.exists_eq_add_of_lt hk
    have split : 2 ^ (32 * (k + d + 1)) = 2 ^ (32 * k) * (2 ^ 32 * 2 ^ (32 * d)) := by ring
    have low := fun y => div_mod_of_mod (2 ^ (32 * k)) (2 ^ 32) (2 ^ (32 * d)) y
    rw [← low (putWord x _ v), ← low x, ← split, putWord_mod]
  · obtain ⟨d, rfl⟩ := Nat.exists_eq_add_of_lt hk
    have split : 2 ^ (32 * (j + d + 1)) = 2 ^ (32 * j + 32) * 2 ^ (32 * d) := by ring
    rw [split, ← Nat.div_div_eq_div_mul, ← Nat.div_div_eq_div_mul, putWord_div]

/-- Writing a word of a register of `n` bits keeps it below `2^n`. -/
theorem putWord_lt {x j n : Nat} (v : Word) (hx : x < 2 ^ n) (hj : 32 * j + 32 ≤ n) : putWord x j v < 2 ^ n := by
  obtain ⟨lo, hi, hlo, -, ehi, e⟩ := putWord_parts x j v
  obtain ⟨d, rfl⟩ := Nat.exists_eq_add_of_le hj
  have hhi : hi < 2 ^ d := by
    rw [ehi]
    apply Nat.div_lt_of_lt_mul
    rwa [← Nat.pow_add]
  have hv := v.isLt
  have h₁ : v.toNat + 2 ^ 32 * hi < 2 ^ 32 * 2 ^ d := by nlinarith
  calc putWord x j v = lo + 2 ^ (32 * j) * (v.toNat + 2 ^ 32 * hi) := e
    _ < 2 ^ (32 * j) * (2 ^ 32 * 2 ^ d) := by nlinarith
    _ = 2 ^ (32 * j + 32 + d) := by rw [Nat.pow_add, Nat.pow_add, Nat.mul_assoc]

/-! ### Bytes -/

@[simp] theorem bytesOf_length (v : Word) : (bytesOf v).length = 4 := rfl

theorem bigEndian_append_singleton (bs : List Byte) (b : Byte) :
    bigEndian (bs ++ [b]) = bigEndian bs * 256 + b.toNat := by
  simp [bigEndian]

/-- `len` bytes make a number below `256^len`. -/
theorem bigEndian_lt (bs : List Byte) : bigEndian bs < 256 ^ bs.length := by
  induction bs using List.reverseRecOn with
  | nil => decide
  | append_singleton bs b ih =>
    rw [bigEndian_append_singleton, List.length_append, List.length_singleton, Nat.pow_succ]
    have := b.isLt
    omega

/-! ### Counters -/

/-- A counter below a bound counts to at most the bound. -/
theorem satInc_le {v w : Word} (h : v < w) : satInc v ≤ w := by
  unfold satInc
  split
  · exact BitVec.le_of_lt h
  · bv_omega

end Sys2Proof.Machine
end

