-- ==== Sys2Proof/Laws/Bus.lean ====
section
/-! SUPPORT. What a host access does, register by register (R64), and what it cannot do. -/

namespace Sys2Proof.Machine

/-! ### The map -/

/-- The words of a big register fit its slot of 0x200 bytes: `W <= 128` (R8, R66). -/
theorem Params.words_le {c : Params} (h : c.wf = true) : c.words ≤ 128 := by
  simp only [Params.wf, Bool.and_eq_true, decide_eq_true_eq] at h
  unfold Params.words
  omega

theorem Params.opw_eq {c : Params} (h : c.wf = true) : c.opw = 32 * c.words := by
  simp only [Params.wf, Bool.and_eq_true, decide_eq_true_eq, beq_iff_eq] at h
  unfold Params.words
  omega

/-- The offset of word `j` of `Ri` (R66). -/
theorem slotAt_big {c : Params} (h : c.wf = true) (i : Fin 8) {j : Nat} (hj : j < c.words) :
    slotAt c (0x1000 + 0x200 * i.val + 4 * j) = some (.big i j) := by
  have hw := Params.words_le h
  have hi := i.isLt
  have e₁ : (0x1000 + 0x200 * i.val + 4 * j) % 0x200 / 4 = j := by omega
  have e₂ : (0x1000 + 0x200 * i.val + 4 * j - 0x1000) / 0x200 % 8 = i.val := by omega
  have h₁ : ¬ 0x1000 + 0x200 * i.val + 4 * j < 0x1000 := by omega
  have h₂ : 0x1000 + 0x200 * i.val + 4 * j < 0x2000 := by omega
  simp only [slotAt, e₁, e₂, if_neg h₁, if_pos h₂, if_pos hj]

/-- The offset of word `j` of key-bank register `k` (R67). -/
theorem slotAt_key {c : Params} (h : c.wf = true) {k j : Nat} (hj : j < c.words) :
    slotAt c (0x2000 + 0x200 * k + 4 * j) = (keyRegAt k).map (fun k => .key k j) := by
  have hw := Params.words_le h
  have e₁ : (0x2000 + 0x200 * k + 4 * j) % 0x200 / 4 = j := by omega
  have e₂ : (0x2000 + 0x200 * k + 4 * j - 0x2000) / 0x200 = k := by omega
  have h₁ : ¬ 0x2000 + 0x200 * k + 4 * j < 0x1000 := by omega
  have h₂ : ¬ 0x2000 + 0x200 * k + 4 * j < 0x2000 := by omega
  simp only [slotAt, e₁, e₂, if_neg h₁, if_neg h₂, if_pos hj]

/-- An offset below 0x1000 is a control or status register or reserved (R64). -/
theorem slotAt_ctrl (c : Params) {off : Nat} (h : off < 0x1000) : slotAt c off = ctrlSlotAt (off / 4) := by
  simp only [slotAt, if_pos h]

/-- A slot of a big register names its offset, and its word exists. -/
theorem slotAt_eq_big {c : Params} {off j : Nat} {i : Fin 8} (hoff : off % 4 = 0) (h : slotAt c off = some (.big i j)) :
    off = 0x1000 + 0x200 * i.val + 4 * j ∧ j < c.words := by
  unfold slotAt at h
  simp only at h
  split at h
  · exfalso
    unfold ctrlSlotAt at h
    have := List.mem_of_getElem? h
    simp at this
  · split at h
    · split at h
      · cases h
        refine ⟨?_, by assumption⟩
        simp only
        omega
      · cases h
    · split at h
      · simp [Option.map_eq_some_iff] at h
      · cases h

/-- The slots below 0x1000 sit at their word offsets (R64). -/
theorem ctrlSlotAt_cases {w : Nat} {sl : Slot} (h : ctrlSlotAt w = some sl) :
    (w, sl) ∈ [(0, Slot.id), (1, .ctrl), (2, .status), (3, .cmd), (4, .mrRounds), (5, .retryMax), (6, .attempts),
      (7, .restarts), (8, .errinfo), (9, .rngData), (10, .rngLevel)] := by
  have hw : w < 11 := by
    unfold ctrlSlotAt at h
    obtain ⟨hl, -⟩ := List.getElem?_eq_some_iff.mp h
    exact hl
  interval_cases w <;> simp [ctrlSlotAt] at h <;> subst h <;> simp

/-- An access reaches a slot exactly if it is 32 bits wide, aligned, and the map has the slot (R62, R63). -/
theorem busSlot_ok_iff {c : Params} {off width : Nat} {sl : Slot} :
    busSlot c off width = .ok sl ↔ width = 4 ∧ off % 4 = 0 ∧ slotAt c off = some sl := by
  unfold busSlot
  by_cases h : width ≠ 4 ∨ off % 4 ≠ 0
  · rw [if_pos h]
    simp only [reduceCtorEq, false_iff, not_and]
    intro h₁ h₂
    omega
  · rw [if_neg h]
    have : width = 4 ∧ off % 4 = 0 := by omega
    cases hs : slotAt c off <;> simp [this]

/-- The only error of an access is `BusFault(offset)` (R62). -/
theorem busSlot_error {c : Params} {off width : Nat} {f : Fault} (h : busSlot c off width = .error f) :
    f = .busFault off := by
  unfold busSlot at h
  split at h
  · cases h
    rfl
  · split at h <;> cases h
    rfl

/-- A bus error, where the access reaches no slot. -/
theorem busSlot_none {c : Params} {off width : Nat} (h : width ≠ 4 ∨ off % 4 ≠ 0 ∨ slotAt c off = none) :
    busSlot c off width = .error (.busFault off) := by
  cases hb : busSlot c off width with
  | error f => rw [busSlot_error hb]
  | ok sl =>
    obtain ⟨h₁, h₂, h₃⟩ := busSlot_ok_iff.mp hb
    simp [h₁, h₂, h₃] at h

theorem busSlot_of_slotAt {c : Params} {off : Nat} {sl : Slot} (ha : off % 4 = 0) (h : slotAt c off = some sl) :
    busSlot c off 4 = .ok sl :=
  busSlot_ok_iff.mpr ⟨rfl, ha, h⟩

/-- The key-bank slots are the one kind of slot a write does not reach (R67). -/
def Slot.isKey : Slot → Bool
  | .key _ _ => true
  | _ => false

theorem busWrite_of_slot {s : State} {off : Nat} {sl : Slot} (v : Word) (h : busSlot s.cfg off 4 = .ok sl)
    (hk : sl.isKey = false) : busWrite s off 4 v = .ok (s.writeSlot v sl) := by
  unfold busWrite
  rw [h]
  cases sl <;> first | rfl | cases hk

theorem busRead_of_slot {s : State} {off : Nat} {sl : Slot} (h : busSlot s.cfg off 4 = .ok sl) :
    busRead s off 4 = .ok (s.readSlot sl) := by
  simp [busRead, h, Except.map]

/-- Everything a write can do: a bus error, or a write of the register the map has there (never a key-bank word). -/
theorem busWrite_cases (s : State) (off width : Nat) (v : Word) :
    busWrite s off width v = .error (.busFault off) ∨
    ∃ sl, sl.isKey = false ∧ width = 4 ∧ off % 4 = 0 ∧ slotAt s.cfg off = some sl ∧
      busWrite s off width v = .ok (s.writeSlot v sl) := by
  unfold busWrite
  cases hb : busSlot s.cfg off width with
  | error f => exact .inl (by rw [busSlot_error hb])
  | ok sl =>
    obtain ⟨h₁, h₂, h₃⟩ := busSlot_ok_iff.mp hb
    cases sl <;> first | exact .inl rfl | exact .inr ⟨_, rfl, h₁, h₂, h₃, rfl⟩

/-! ### Writes, register by register -/

/-- The fields of a state no host write reaches, and the parameters. -/
theorem writeSlot_keeps (s : State) (v : Word) (sl : Slot) :
    (s.writeSlot v sl).key = s.key ∧ (s.writeSlot v sl).keyValid = s.keyValid ∧ (s.writeSlot v sl).cfg = s.cfg ∧
    (s.writeSlot v sl).turns = s.turns ∧ (s.writeSlot v sl).resp = s.resp := by
  cases sl with
  | ctrl =>
    simp only [State.writeSlot, State.writeCtrl]
    repeat' split
    all_goals exact ⟨rfl, rfl, rfl, rfl, rfl⟩
  | cmd =>
    simp only [State.writeSlot, State.writeCmd]
    split <;> exact ⟨rfl, rfl, rfl, rfl, rfl⟩
  | rngData =>
    simp only [State.writeSlot, State.writeRngData]
    repeat' split
    all_goals exact ⟨rfl, rfl, rfl, rfl, rfl⟩
  | big i j =>
    simp only [State.writeSlot, State.writeBig]
    split <;> exact ⟨rfl, rfl, rfl, rfl, rfl⟩
  | _ => exact ⟨rfl, rfl, rfl, rfl, rfl⟩

/-- While busy, no host write reaches what the running command works on (R66, R146, R212, R281). -/
theorem writeSlot_busy {s : State} (hb : s.busy = true) (v : Word) (sl : Slot) :
    (s.writeSlot v sl).eng = s.eng ∧ (s.writeSlot v sl).regs = s.regs ∧ (s.writeSlot v sl).rng = s.rng ∧
    (s.writeSlot v sl).attempts = s.attempts ∧ (s.writeSlot v sl).restarts = s.restarts ∧
    (s.writeSlot v sl).errinfo = s.errinfo ∧ (s.writeSlot v sl).status.err = s.status.err ∧
    (s.writeSlot v sl).status.result = s.status.result := by
  cases sl with
  | ctrl =>
    simp only [State.writeSlot, State.writeCtrl, hb, if_true]
    split <;> exact ⟨rfl, rfl, rfl, rfl, rfl, rfl, rfl, rfl⟩
  | cmd =>
    simp only [State.writeSlot, State.writeCmd, hb, if_true, and_self]
  | rngData =>
    simp only [State.writeSlot, State.writeRngData, hb, if_true]
    exact ⟨rfl, rfl, rfl, rfl, rfl, rfl, rfl, rfl⟩
  | big i j =>
    simp only [State.writeSlot, State.writeBig, hb, if_true]
    exact ⟨rfl, rfl, rfl, rfl, rfl, rfl, rfl, rfl⟩
  | _ => exact ⟨rfl, rfl, rfl, rfl, rfl, rfl, rfl, rfl⟩

/-! ### Accesses -/

theorem windowOffset_base_add (c : Params) {off : Nat} (h : off < 0x3000) : windowOffset c (c.base + off) = some off := by
  have h₁ : c.base ≤ c.base + off ∧ c.base + off < c.base + 0x3000 := by omega
  have h₂ : c.base + off - c.base = off := by omega
  rw [windowOffset, if_pos h₁, h₂]

theorem windowOffset_cases (c : Params) (addr : Nat) :
    (∃ off, off < 0x3000 ∧ addr = c.base + off ∧ windowOffset c addr = some off) ∨
    ((addr < c.base ∨ c.base + 0x3000 ≤ addr) ∧ windowOffset c addr = none) := by
  by_cases h : c.base ≤ addr ∧ addr < c.base + 0x3000
  · refine .inl ⟨addr - c.base, by omega, by omega, by rw [windowOffset, if_pos h]⟩
  · exact .inr ⟨by omega, by rw [windowOffset, if_neg h]⟩

/-- What a read gives does not depend on the turns to come or on the last answer. -/
theorem busRead_turns_resp (s : State) (r : List Turn) (p : Option BusResp) (off width : Nat) :
    busRead { s with turns := r, resp := p } off width = busRead s off width := by
  unfold busRead
  congr 1

/-- The answer of a read. -/
def readAnswer (s : State) (off width : Nat) : BusResp :=
  match busRead s off width with
  | .ok v => .data v
  | .error f => .error f

/-- A read only records its answer (R72). -/
theorem access_read (s : State) (off addr width : Nat) :
    s.access off (.read addr width) = { s with resp := some (readAnswer s off width) } := by
  unfold State.access readAnswer
  cases h : busRead s off width <;> simp only [h]

/-- Everything an access can do: record an answer, and for a write that reaches a register, write it. -/
theorem access_cases (s : State) (off : Nat) (a : Access) :
    ∃ r, s.access off a = { s with resp := some r } ∨
      ∃ sl v, sl.isKey = false ∧ off % 4 = 0 ∧ slotAt s.cfg off = some sl ∧
        s.access off a = { s.writeSlot v sl with resp := some r } := by
  cases a with
  | read addr width =>
    cases hb : busRead s off width with
    | ok v => exact ⟨.data v, .inl (by simp [State.access, hb])⟩
    | error f => exact ⟨.error f, .inl (by simp [State.access, hb])⟩
  | write addr width v =>
    rcases busWrite_cases s off width v with e | ⟨sl, hk, -, ha, hs, e⟩
    · exact ⟨.error (.busFault off), .inl (by simp [State.access, e])⟩
    · exact ⟨.accepted, .inr ⟨sl, v, hk, ha, hs, by simp [State.access, e]⟩⟩

/-- A host step inside the window is the access; outside, it stops the run. -/
theorem hostStep_cases (a : Access) (s : State) :
    (∃ off, off < 0x3000 ∧ a.addr = s.cfg.base + off ∧ hostStep a s = .next (s.access off a)) ∨
    ((a.addr < s.cfg.base ∨ s.cfg.base + 0x3000 ≤ a.addr) ∧ hostStep a s = .fault (.outsideWindow a.addr)) := by
  rcases windowOffset_cases s.cfg a.addr with ⟨off, h, e, hw⟩ | ⟨h, hw⟩
  · exact .inl ⟨off, h, e, by simp [hostStep, hw]⟩
  · exact .inr ⟨h, by simp [hostStep, hw]⟩

end Sys2Proof.Machine
end

