-- ==== Sys2Proof/Laws/Random.lean ====
section
/-! SUPPORT. What a draw does (R142 to R146), and what the Miller-Rabin test and an attempt do to the sources. -/

namespace Sys2Proof.Machine

/-- `g'` is `g` after draws: bytes left from the front of the queue, and nothing else happened to it (R41, R146). -/
def Rng.After (g g' : Rng) : Prop := ∃ n, g'.queue = g.queue.drop n

theorem Rng.After.refl (g : Rng) : g.After g := ⟨0, rfl⟩

theorem Rng.After.trans {g₁ g₂ g₃ : Rng} (h : g₁.After g₂) (h' : g₂.After g₃) : g₁.After g₃ := by
  obtain ⟨n, e⟩ := h
  obtain ⟨m, e'⟩ := h'
  exact ⟨n + m, by rw [e', e, List.drop_drop]⟩

theorem Rng.After.length_le {g g' : Rng} (h : g.After g') : g'.queue.length ≤ g.queue.length := by
  obtain ⟨n, e⟩ := h
  rw [e, List.length_drop]
  omega

/-! ### Draws -/

theorem drawBytesFifo_short {len : Nat} {g : Rng} (h : g.queue.length < len) :
    drawBytesFifo len g = (.error (rngEmpty len), g) := by
  simp [drawBytesFifo, h]

theorem drawBytesFifo_enough {len : Nat} {g : Rng} (h : len ≤ g.queue.length) :
    drawBytesFifo len g = (.ok (bigEndian (g.queue.take len)), { g with queue := g.queue.drop len }) := by
  simp [drawBytesFifo, Nat.not_lt.mpr h]

/-- Everything a draw of bytes can do. -/
theorem drawBytes_cases (src : RngSrc) (len : Nat) (g : Rng) :
    (src = .trng ∧ drawBytes src len g = (.ok (freeDraw g.draws % 256 ^ len), { g with draws := g.draws + 1 })) ∨
    (src = .fifo ∧ g.queue.length < len ∧ drawBytes src len g = (.error (rngEmpty len), g)) ∨
    (src = .fifo ∧ len ≤ g.queue.length ∧
      drawBytes src len g = (.ok (bigEndian (g.queue.take len)), { g with queue := g.queue.drop len })) := by
  cases src with
  | trng => exact .inl ⟨rfl, rfl⟩
  | fifo =>
    rcases Nat.lt_or_ge g.queue.length len with h | h
    · exact .inr (.inl ⟨rfl, h, drawBytesFifo_short h⟩)
    · exact .inr (.inr ⟨rfl, h, drawBytesFifo_enough h⟩)

/-- A value drawn is below `256^len`. -/
theorem drawBytes_lt {src : RngSrc} {len v : Nat} {g g' : Rng} (h : drawBytes src len g = (.ok v, g')) :
    v < 256 ^ len := by
  rcases drawBytes_cases src len g with ⟨-, e⟩ | ⟨-, -, e⟩ | ⟨-, hl, e⟩ <;> rw [e] at h
  · cases h
    exact Nat.mod_lt _ (by positivity)
  · cases h
  · cases h
    simpa [Nat.min_eq_left hl] using bigEndian_lt (g.queue.take len)

/-- A draw of bytes only takes bytes off the front. -/
theorem drawBytes_after (src : RngSrc) (len : Nat) (g : Rng) : g.After (drawBytes src len g).2 := by
  rcases drawBytes_cases src len g with ⟨-, e⟩ | ⟨-, -, e⟩ | ⟨-, -, e⟩ <;> rw [e]
  · exact ⟨0, rfl⟩
  · exact .refl g
  · exact ⟨len, rfl⟩

/-- Everything a draw of a base can do. -/
theorem drawBase_cases (src : RngSrc) (n : Nat) (g : Rng) :
    (src = .trng ∧ drawBase src n g = (.ok (2 + freeDraw g.draws % (n - 3)), { g with draws := g.draws + 1 })) ∨
    (src = .fifo ∧ g.queue.length < byteLen n ∧ drawBase src n g = (.error (rngEmpty (byteLen n)), g)) ∨
    (src = .fifo ∧ byteLen n ≤ g.queue.length ∧
      drawBase src n g = (.ok (2 + bigEndian (g.queue.take (byteLen n)) % (n - 3)),
        { g with queue := g.queue.drop (byteLen n) })) := by
  cases src with
  | trng => exact .inl ⟨rfl, rfl⟩
  | fifo =>
    rcases Nat.lt_or_ge g.queue.length (byteLen n) with h | h
    · exact .inr (.inl ⟨rfl, h, by simp [drawBase, drawBytesFifo_short h]⟩)
    · exact .inr (.inr ⟨rfl, h, by simp [drawBase, drawBytesFifo_enough h]⟩)

/-! ### The test -/

/-- The rounds only draw, and their one error is RNGEMPTY. -/
theorem rounds_after (src : RngSrc) (n d s k : Nat) (g : Rng) :
    g.After (rounds src n d s k g).2 ∧ ∀ e, (rounds src n d s k g).1 = .error e → e = rngEmpty (byteLen n) := by
  induction k generalizing g with
  | zero => exact ⟨.refl g, by simp [rounds]⟩
  | succ k ih =>
    rcases drawBase_cases src n g with ⟨-, e⟩ | ⟨-, -, e⟩ | ⟨-, -, e⟩ <;> simp only [rounds, e]
    · split
      · exact ⟨.trans ⟨0, rfl⟩ (ih _).1, (ih _).2⟩
      · exact ⟨⟨0, rfl⟩, by simp⟩
    · exact ⟨.refl g, by rintro _ ⟨⟩; rfl⟩
    · split
      · exact ⟨.trans ⟨byteLen n, rfl⟩ (ih _).1, (ih _).2⟩
      · exact ⟨⟨byteLen n, rfl⟩, by simp⟩

/-- Everything the test can do: even, outside the domain, or the rounds (R151). -/
theorem millerRabin_cases (src : RngSrc) (n k : Nat) (g : Rng) :
    (n % 2 = 0 ∧ millerRabin src n k g = (.ok false, g)) ∨
    (n % 2 = 1 ∧ n < 5 ∧ millerRabin src n k g = (.error ⟨.domain, low32 n⟩, g)) ∨
    (n % 2 = 1 ∧ 5 ≤ n ∧ millerRabin src n k g = rounds src n (oddPart n).1 (oddPart n).2 k g) := by
  unfold millerRabin
  rcases Nat.mod_two_eq_zero_or_one n with h | h
  · exact .inl ⟨h, by simp [h]⟩
  · rcases Nat.lt_or_ge n 5 with h5 | h5
    · exact .inr (.inl ⟨h, h5, by simp [h, h5]⟩)
    · exact .inr (.inr ⟨h, h5, by simp [h, Nat.not_lt.mpr h5]⟩)

theorem millerRabin_after (src : RngSrc) (n k : Nat) (g : Rng) : g.After (millerRabin src n k g).2 := by
  rcases millerRabin_cases src n k g with ⟨-, e⟩ | ⟨-, -, e⟩ | ⟨-, -, e⟩ <;> rw [e]
  · exact .refl g
  · exact .refl g
  · exact (rounds_after ..).1

/-- A number that passes is odd and at least 5. -/
theorem millerRabin_true {src : RngSrc} {n k : Nat} {g g' : Rng} (h : millerRabin src n k g = (.ok true, g')) :
    n % 2 = 1 ∧ 5 ≤ n := by
  rcases millerRabin_cases src n k g with ⟨-, e⟩ | ⟨-, -, e⟩ | ⟨h₁, h₂, -⟩
  · simp [e] at h
  · simp [e] at h
  · exact ⟨h₁, h₂⟩

/-- The errors of the test are DOMAIN and RNGEMPTY. -/
theorem millerRabin_error {src : RngSrc} {n k : Nat} {g g' : Rng} {e : CmdError}
    (h : millerRabin src n k g = (.error e, g')) : e.code = .domain ∨ e.code = .rngempty := by
  rcases millerRabin_cases src n k g with ⟨-, eq⟩ | ⟨-, -, eq⟩ | ⟨-, -, eq⟩ <;> rw [eq] at h
  · cases h
  · cases h
    exact .inl rfl
  · have := (rounds_after src n (oddPart n).1 (oddPart n).2 k g).2 e (by rw [h])
    exact .inr (by rw [this]; rfl)

/-! ### An attempt -/

/-- Everything an attempt can do (R157): the ceiling; a draw that lacks bytes; a candidate drawn and counted, which the
test passes, fails, or cannot finish. -/
theorem attempt_cases (len : Nat) (s : State) :
    (s.lat.rmax ≠ 0 ∧ s.lat.rmax ≤ s.attempts ∧ attempt len s = (.error ⟨.exhausted, s.attempts⟩, s)) ∨
    ((s.lat.rmax = 0 ∨ s.attempts < s.lat.rmax) ∧
      ((s.lat.src = .fifo ∧ s.rng.queue.length < len ∧ attempt len s = (.error (rngEmpty len), s)) ∨
       ∃ c g, drawBytes s.lat.src len s.rng = (.ok c, g) ∧
        ((∃ g', millerRabin s.lat.src c s.lat.k.toNat g = (.ok true, g') ∧
            attempt len s = (.ok (some c), { s with rng := g', attempts := satInc s.attempts })) ∨
         (∃ g', millerRabin s.lat.src c s.lat.k.toNat g = (.ok false, g') ∧
            attempt len s = (.ok none, { s with rng := g', attempts := satInc s.attempts })) ∨
         (∃ e g', millerRabin s.lat.src c s.lat.k.toNat g = (.error e, g') ∧
            attempt len s = (.error e, { s with rng := g', attempts := satInc s.attempts }))))) := by
  by_cases hc : s.lat.rmax ≠ 0 ∧ s.lat.rmax ≤ s.attempts
  · exact .inl ⟨hc.1, hc.2, by rw [attempt, if_pos hc]⟩
  · refine .inr ⟨?_, ?_⟩
    · by_cases h0 : s.lat.rmax = 0
      · exact .inl h0
      · exact .inr (BitVec.not_le.mp fun h => hc ⟨h0, h⟩)
    · have found : ∀ c g, drawBytes s.lat.src len s.rng = (.ok c, g) →
          attempt len s = ((millerRabin s.lat.src c s.lat.k.toNat g).1.map fun b => if b then some c else none,
            { s with rng := (millerRabin s.lat.src c s.lat.k.toNat g).2, attempts := satInc s.attempts }) := by
        intro c g h
        rw [attempt, if_neg hc]
        simp [h]
      rcases hd : drawBytes s.lat.src len s.rng with ⟨_ | c, g⟩
      · rcases drawBytes_cases s.lat.src len s.rng with ⟨-, e⟩ | ⟨hs, hl, e⟩ | ⟨-, -, e⟩
        · simp [e] at hd
        · refine .inl ⟨hs, hl, ?_⟩
          rw [attempt, if_neg hc]
          simp [e]
        · simp [e] at hd
      · refine .inr ⟨c, g, rfl, ?_⟩
        rcases hm : millerRabin s.lat.src c s.lat.k.toNat g with ⟨e | b, g'⟩
        · exact .inr (.inr ⟨e, g', rfl, by rw [found c g hd, hm]; rfl⟩)
        · cases b with
          | true => exact .inl ⟨g', rfl, by rw [found c g hd, hm]; rfl⟩
          | false => exact .inr (.inl ⟨g', rfl, by rw [found c g hd, hm]; rfl⟩)

end Sys2Proof.Machine
end

