-- ==== Sys2Proof/Laws/Exec.lean ====
section
/-! SUPPORT. Everything an engine step of a command can do, said once: no step of a command stops; the commands of one step
complete; PRIMEGEN and KEYGEN complete or go on. -/

namespace Sys2Proof.Machine

/-- No command stops the machine: errors are completions (R230). -/
theorem exec_next (i : Instr) (s : State) : ∃ t, exec i s = .next t := by
  cases i <;> exact ⟨_, rfl⟩

/-- The commands of one step that write a register: they complete, with a value for `Rd` or an error, and draw nothing. -/
theorem execModexp_eq (rd ra rb rc : RegField) (s : State) :
    execModexp rd ra rb rc s =
      .next (s.complete ((modexpValue (s.operand ra) (s.operand rb) (s.operand rc)).map (.reg (regIdx rd)))) := rfl

theorem execModinv_eq (rd ra rb : RegField) (s : State) :
    execModinv rd ra rb s =
      .next (s.complete ((modinvValue (s.operand ra) (s.operand rb)).map (.reg (regIdx rd)))) := rfl

theorem execGcd_eq (rd ra rb : RegField) (s : State) :
    execGcd rd ra rb s = .next (s.complete (.ok (.reg (regIdx rd) (Nat.gcd (s.operand ra) (s.operand rb))))) := rfl

theorem execEncrypt_eq (rd ra : RegField) (s : State) :
    execEncrypt rd ra s = .next (s.complete ((transformValue s (s.operand ra) s.key.e).map (.reg (regIdx rd)))) := rfl

theorem execDecrypt_eq (rd ra : RegField) (s : State) :
    execDecrypt rd ra s = .next (s.complete ((transformValue s (s.operand ra) s.key.d).map (.reg (regIdx rd)))) := rfl

/-- Everything a completion with a register value can be. -/
theorem complete_reg_cases (s : State) (r : Except CmdError Nat) (i : Fin 8) :
    (∃ v, r = .ok v ∧ s.complete (r.map (.reg i)) = (s.setReg i v).finish .ok false 0) ∨
    (∃ e, r = .error e ∧ s.complete (r.map (.reg i)) = s.raise e) := by
  cases r with
  | ok v => exact .inl ⟨v, rfl, rfl⟩
  | error e => exact .inr ⟨e, rfl, rfl⟩

/-- The values and errors of MODEXP (R110). -/
theorem modexpValue_cases (a b m : Nat) :
    (m = 0 ∧ modexpValue a b m = .error ⟨.divzero, 0⟩) ∨ (m ≠ 0 ∧ modexpValue a b m = .ok (modExp a b m)) := by
  by_cases h : m = 0
  · exact .inl ⟨h, by simp [modexpValue, h]⟩
  · exact .inr ⟨h, by simp [modexpValue, h]⟩

/-- The values and errors of MODINV (R115). -/
theorem modinvValue_cases (a m : Nat) :
    (m = 0 ∧ modinvValue a m = .error ⟨.divzero, 0⟩) ∨
    (m ≠ 0 ∧ Nat.gcd a m ≠ 1 ∧ modinvValue a m = .error ⟨.notcoprime, low32 (Nat.gcd a m)⟩) ∨
    (m ≠ 0 ∧ Nat.gcd a m = 1 ∧ modinvValue a m = .ok (modInverse a m)) := by
  by_cases h : m = 0
  · exact .inl ⟨h, by simp [modinvValue, h]⟩
  · by_cases hg : Nat.gcd a m = 1
    · exact .inr (.inr ⟨h, hg, by simp [modinvValue, h, hg]⟩)
    · exact .inr (.inl ⟨h, hg, by simp [modinvValue, h, hg]⟩)

/-- The values and errors of the transform (R190 to R195). -/
theorem transformValue_cases (s : State) (x e : Nat) :
    (s.keyValid = false ∧ transformValue s x e = .error ⟨.nokey, 0⟩) ∨
    (s.keyValid = true ∧ s.lat.rchk = true ∧ s.key.n ≤ x ∧ transformValue s x e = .error ⟨.range, 0⟩) ∨
    (s.keyValid = true ∧ (s.lat.rchk = false ∨ x < s.key.n) ∧ transformValue s x e = .ok (modExp x e s.key.n)) := by
  cases hk : s.keyValid with
  | false => exact .inl ⟨rfl, by simp [transformValue, hk]⟩
  | true =>
    by_cases hr : s.lat.rchk = true ∧ s.key.n ≤ x
    · exact .inr (.inl ⟨rfl, hr.1, hr.2, by simp [transformValue, hk, hr]⟩)
    · refine .inr (.inr ⟨rfl, ?_, by rw [transformValue, if_neg (by simp [hk]), if_neg hr]⟩)
      by_cases hc : s.lat.rchk = true
      · exact .inr (Nat.lt_of_not_le fun h => hr ⟨hc, h⟩)
      · exact .inl (by simpa using hc)

/-- Everything MRTEST can do (R150): it completes with the boolean of the test, or takes the test's error. -/
theorem execMrtest_cases (ra : RegField) (s : State) :
    (∃ b g, millerRabin s.lat.src (s.operand ra) s.lat.k.toNat s.rng = (.ok b, g) ∧
      execMrtest ra s = .next (({ s with rng := g } : State).finish .ok b 0)) ∨
    (∃ e g, millerRabin s.lat.src (s.operand ra) s.lat.k.toNat s.rng = (.error e, g) ∧
      execMrtest ra s = .next (({ s with rng := g } : State).raise e)) := by
  rcases h : millerRabin s.lat.src (s.operand ra) s.lat.k.toNat s.rng with ⟨e | b, g⟩
  · exact .inr ⟨e, g, rfl, by simp [execMrtest, h, Except.map]⟩
  · exact .inl ⟨b, g, rfl, by simp [execMrtest, h, Except.map]⟩

/-- Everything PRIMEGEN can do in a step (R156): refuse the length, take an attempt's error, write a found candidate, or go
on. -/
theorem execPrimegen_cases (rd : RegField) (imm : BitVec 16) (s : State) :
    ((immValue imm = 0 ∨ s.cfg.opw < 8 * immValue imm) ∧
      execPrimegen rd imm s = .next (s.raise ⟨.param, immWord imm⟩)) ∨
    (immValue imm ≠ 0 ∧ 8 * immValue imm ≤ s.cfg.opw ∧
      ((∃ e s', attempt (immValue imm) s = (.error e, s') ∧ execPrimegen rd imm s = .next (s'.raise e)) ∨
       (∃ s', attempt (immValue imm) s = (.ok none, s') ∧ execPrimegen rd imm s = .next s') ∨
       (∃ c s', attempt (immValue imm) s = (.ok (some c), s') ∧
          execPrimegen rd imm s = .next ((s'.setReg (regIdx rd) c).finish .ok false 0)))) := by
  by_cases h : immValue imm = 0 ∨ s.cfg.opw < 8 * immValue imm
  · exact .inl ⟨h, by rw [execPrimegen, if_pos h]⟩
  · refine .inr ⟨by tauto, by omega, ?_⟩
    rcases ha : attempt (immValue imm) s with ⟨e | o, s'⟩
    · exact .inl ⟨e, s', rfl, by rw [execPrimegen, if_neg h, ha]⟩
    · cases o with
      | none => exact .inr (.inl ⟨s', rfl, by rw [execPrimegen, if_neg h, ha]⟩)
      | some c => exact .inr (.inr ⟨c, s', rfl, by rw [execPrimegen, if_neg h, ha]; rfl⟩)

/-- Everything a found prime can lead to in a running KEYGEN (R171, R173). -/
theorem keygenFound_cases (c : Nat) {s : State} {w : Word} {lat : Latch} {mic : Mic} (he : s.eng = .busy w lat mic) :
    ((∀ p, mic ≠ .genQ p) ∧ keygenFound c s = { s with eng := .busy w lat (.genQ c) }) ∨
    (∃ p k, mic = .genQ p ∧ keyPair p c = some k ∧
      keygenFound c s = ({ s with key := k, keyValid := true } : State).finish .ok false 0) ∨
    (∃ p, mic = .genQ p ∧ keyPair p c = none ∧
      keygenFound c s = { s with restarts := satInc s.restarts, eng := .busy w lat .genP }) := by
  cases mic with
  | empty => exact .inl ⟨by simp, by simp [keygenFound, State.mic, State.setMic, he]⟩
  | genP => exact .inl ⟨by simp, by simp [keygenFound, State.mic, State.setMic, he]⟩
  | genQ p =>
    cases hk : keyPair p c with
    | some k => exact .inr (.inl ⟨p, k, rfl, hk, by simp [keygenFound, State.mic, he, hk]⟩)
    | none => exact .inr (.inr ⟨p, rfl, hk, by simp [keygenFound, State.mic, State.setMic, he, hk]⟩)

/-- The key pair of two primes, and when there is none (R171, R173). -/
theorem keyPair_cases (p q : Nat) :
    ((Nat.gcd eFixed ((p - 1) * (q - 1)) ≠ 1 ∨ p = q) ∧ keyPair p q = none) ∨
    (Nat.gcd eFixed ((p - 1) * (q - 1)) = 1 ∧ p ≠ q ∧
      keyPair p q = some ⟨p, q, p * q, (p - 1) * (q - 1), eFixed, modInverse eFixed ((p - 1) * (q - 1))⟩) := by
  by_cases h : Nat.gcd eFixed ((p - 1) * (q - 1)) ≠ 1 ∨ p = q
  · exact .inl ⟨h, by rw [keyPair, if_pos h]⟩
  · exact .inr ⟨by tauto, by tauto, by rw [keyPair, if_neg h]⟩

/-- Everything KEYGEN can do in a step (R171): refuse the length, take an attempt's error, go on after a failed candidate,
or use a found prime. -/
theorem execKeygen_cases (imm : BitVec 16) (s : State) :
    ((primeLen imm = 0 ∨ s.cfg.opw < 16 * primeLen imm) ∧
      execKeygen imm s = .next (s.raise ⟨.param, immWord imm⟩)) ∨
    (primeLen imm ≠ 0 ∧ 16 * primeLen imm ≤ s.cfg.opw ∧
      ((∃ e s', attempt (primeLen imm) s = (.error e, s') ∧ execKeygen imm s = .next (s'.raise e)) ∨
       (∃ s', attempt (primeLen imm) s = (.ok none, s') ∧ execKeygen imm s = .next s') ∨
       (∃ c s', attempt (primeLen imm) s = (.ok (some c), s') ∧
          execKeygen imm s = .next (keygenFound c s')))) := by
  by_cases h : primeLen imm = 0 ∨ s.cfg.opw < 16 * primeLen imm
  · exact .inl ⟨h, by rw [execKeygen, if_pos h]⟩
  · refine .inr ⟨by tauto, by omega, ?_⟩
    rcases ha : attempt (primeLen imm) s with ⟨e | o, s'⟩
    · exact .inl ⟨e, s', rfl, by rw [execKeygen, if_neg h, ha]⟩
    · cases o with
      | none => exact .inr (.inl ⟨s', rfl, by rw [execKeygen, if_neg h, ha]⟩)
      | some c => exact .inr (.inr ⟨c, s', rfl, by rw [execKeygen, if_neg h, ha]⟩)

/-- An attempt changes the sources and ATTEMPTS, and nothing else. -/
theorem attempt_state (len : Nat) (s : State) :
    ∃ g a, s.rng.After g ∧ (attempt len s).2 = { s with rng := g, attempts := a } := by
  rcases attempt_cases len s with ⟨-, -, e⟩ | ⟨-, ⟨-, -, e⟩ | ⟨c, g, hd, hm⟩⟩
  · exact ⟨s.rng, s.attempts, .refl _, by rw [e]⟩
  · exact ⟨s.rng, s.attempts, .refl _, by rw [e]⟩
  · have h₁ : s.rng.After g := by simpa [hd] using drawBytes_after s.lat.src len s.rng
    rcases hm with ⟨g', hm, e⟩ | ⟨g', hm, e⟩ | ⟨_, g', hm, e⟩ <;>
    · have h₂ : g.After g' := by simpa [hm] using millerRabin_after s.lat.src c s.lat.k.toNat g
      exact ⟨g', satInc s.attempts, h₁.trans h₂, by rw [e]⟩

end Sys2Proof.Machine
end

