-- ==== Sys2Proof/Laws/PerInstr.lean ====
section
/-! SUPPORT. Facts of every command as syntax, one lemma per constructor: the family `OwnRow` says that the word of a
command carries the command's opcode, and that the word of a well-formed command matches the row of that opcode (R94,
R100). -/

namespace Sys2Proof.Laws.OwnRow

/-- The word carries the opcode; well-formed, it matches the row of that opcode. -/
def Statement (i : Instr) : Prop :=
  fieldOpc (encode i) = i.opc ∧ (i.wf = true → ∃ r ∈ rows, r.opc = i.opc ∧ r.hits (encode i) = true)

theorem opc_formatR (o : BitVec 8) (rd ra rb rc : RegField) : fieldOpc (formatR o rd ra rb rc) = o := by
  unfold fieldOpc formatR
  ext i hi
  interval_cases i <;> simp

theorem opc_formatI (o : BitVec 8) (rd : RegField) (imm : BitVec 16) : fieldOpc (formatI o rd imm) = o := by
  unfold fieldOpc formatI
  ext i hi
  interval_cases i <;> simp

/-- A field in place is cleared by the row masks of the table, for a legal register (R95) in the place of `RD`. -/
theorem rd_masked : ∀ r : RegField, RegField.wf r = true →
    r.setWidth 32 <<< 20 &&& 0xFF8888FF#32 = 0#32 ∧ r.setWidth 32 <<< 20 &&& 0xFF888FFF#32 = 0#32 ∧
    r.setWidth 32 <<< 20 &&& 0xFF8F0000#32 = 0#32 ∧ r.setWidth 32 <<< 20 &&& 0xFF88FFFF#32 = 0#32 := by decide

/-- The same in the place of `RA`. -/
theorem ra_masked : ∀ r : RegField, RegField.wf r = true →
    r.setWidth 32 <<< 16 &&& 0xFF8888FF#32 = 0#32 ∧ r.setWidth 32 <<< 16 &&& 0xFF888FFF#32 = 0#32 ∧
    r.setWidth 32 <<< 16 &&& 0xFFF8FFFF#32 = 0#32 ∧ r.setWidth 32 <<< 16 &&& 0xFF88FFFF#32 = 0#32 := by decide

/-- The same in the place of `RB`. -/
theorem rb_masked : ∀ r : RegField, RegField.wf r = true →
    r.setWidth 32 <<< 12 &&& 0xFF8888FF#32 = 0#32 ∧ r.setWidth 32 <<< 12 &&& 0xFF888FFF#32 = 0#32 := by decide

/-- The same in the place of `RC`. -/
theorem rc_masked : ∀ r : RegField, RegField.wf r = true → r.setWidth 32 <<< 8 &&& 0xFF8888FF#32 = 0#32 := by decide

/-- An immediate is cleared by the masks of format I. -/
theorem imm_masked (imm : BitVec 16) :
    imm.setWidth 32 &&& 0xFF8F0000#32 = 0#32 ∧ imm.setWidth 32 &&& 0xFFFF0000#32 = 0#32 := by
  have low : ∀ m : Word, m &&& 0xFFFF#32 = 0#32 → imm.setWidth 32 &&& m = 0#32 := by
    intro m hm
    have : imm.setWidth 32 = imm.setWidth 32 &&& 0xFFFF#32 := by
      ext i hi
      by_cases h : i < 16
      · interval_cases i <;> simp
      · simp [Nat.not_lt.mp h]
    rw [this, BitVec.and_assoc, BitVec.and_comm 0xFFFF#32, hm, BitVec.and_zero]
  exact ⟨low _ (by decide), low _ (by decide)⟩

/-- Masking goes through a union of bits. -/
theorem or_masked (a b m : Word) : (a ||| b) &&& m = a &&& m ||| b &&& m := by
  ext i hi
  simp [Bool.and_or_distrib_right]

/-- The masked word of format R, field by field. -/
theorem and_formatR (o : BitVec 8) (rd ra rb rc : RegField) (m : Word) :
    formatR o rd ra rb rc &&& m =
      (o.setWidth 32 <<< 24 &&& m) ||| (rd.setWidth 32 <<< 20 &&& m) ||| (ra.setWidth 32 <<< 16 &&& m)
        ||| (rb.setWidth 32 <<< 12 &&& m) ||| (rc.setWidth 32 <<< 8 &&& m) := by
  simp only [formatR, or_masked]

/-- The masked word of format I, field by field. -/
theorem and_formatI (o : BitVec 8) (rd : RegField) (imm : BitVec 16) (m : Word) :
    formatI o rd imm &&& m =
      (o.setWidth 32 <<< 24 &&& m) ||| (rd.setWidth 32 <<< 20 &&& m) ||| (imm.setWidth 32 &&& m) := by
  simp only [formatI, or_masked]

theorem nop : Statement .nop :=
  ⟨opc_formatR .., fun _ => ⟨rows[0], List.getElem_mem _, rfl, by decide⟩⟩

theorem modexp (rd ra rb rc : RegField) : Statement (.modexp rd ra rb rc) := by
  refine ⟨opc_formatR .., fun h => ⟨rows[1], List.getElem_mem _, rfl, ?_⟩⟩
  simp only [Instr.wf, Bool.and_eq_true] at h
  obtain ⟨⟨⟨hd, ha⟩, hb⟩, hc⟩ := h
  simp [Row.hits, Row.pat, rows, encode, Instr.opc, and_formatR, rd_masked _ hd, ra_masked _ ha, rb_masked _ hb,
    rc_masked _ hc]

theorem modinv (rd ra rb : RegField) : Statement (.modinv rd ra rb) := by
  refine ⟨opc_formatR .., fun h => ⟨rows[2], List.getElem_mem _, rfl, ?_⟩⟩
  simp only [Instr.wf, Bool.and_eq_true] at h
  obtain ⟨⟨hd, ha⟩, hb⟩ := h
  simp [Row.hits, Row.pat, rows, encode, Instr.opc, and_formatR, rd_masked _ hd, ra_masked _ ha, rb_masked _ hb]

theorem gcd (rd ra rb : RegField) : Statement (.gcd rd ra rb) := by
  refine ⟨opc_formatR .., fun h => ⟨rows[3], List.getElem_mem _, rfl, ?_⟩⟩
  simp only [Instr.wf, Bool.and_eq_true] at h
  obtain ⟨⟨hd, ha⟩, hb⟩ := h
  simp [Row.hits, Row.pat, rows, encode, Instr.opc, and_formatR, rd_masked _ hd, ra_masked _ ha, rb_masked _ hb]

theorem mrtest (ra : RegField) : Statement (.mrtest ra) := by
  refine ⟨opc_formatR .., fun h => ⟨rows[4], List.getElem_mem _, rfl, ?_⟩⟩
  simp [Row.hits, Row.pat, rows, encode, Instr.opc, and_formatR, ra_masked _ h]

theorem primegen (rd : RegField) (imm : BitVec 16) : Statement (.primegen rd imm) := by
  refine ⟨opc_formatI .., fun h => ⟨rows[5], List.getElem_mem _, rfl, ?_⟩⟩
  simp [Row.hits, Row.pat, rows, encode, Instr.opc, and_formatI, rd_masked _ h, imm_masked]

theorem keygen (imm : BitVec 16) : Statement (.keygen imm) := by
  refine ⟨opc_formatI .., fun _ => ⟨rows[6], List.getElem_mem _, rfl, ?_⟩⟩
  simp [Row.hits, Row.pat, rows, encode, Instr.opc, and_formatI, imm_masked]

theorem encrypt (rd ra : RegField) : Statement (.encrypt rd ra) := by
  refine ⟨opc_formatR .., fun h => ⟨rows[7], List.getElem_mem _, rfl, ?_⟩⟩
  simp only [Instr.wf, Bool.and_eq_true] at h
  simp [Row.hits, Row.pat, rows, encode, Instr.opc, and_formatR, rd_masked _ h.1, ra_masked _ h.2]

theorem decrypt (rd ra : RegField) : Statement (.decrypt rd ra) := by
  refine ⟨opc_formatR .., fun h => ⟨rows[8], List.getElem_mem _, rfl, ?_⟩⟩
  simp only [Instr.wf, Bool.and_eq_true] at h
  simp [Row.hits, Row.pat, rows, encode, Instr.opc, and_formatR, rd_masked _ h.1, ra_masked _ h.2]

end Sys2Proof.Laws.OwnRow
end

