-- ==== Sys2Proof/Laws/Step.lean ====
section
/-! SUPPORT. Everything a step can do, turn by turn. -/

namespace Sys2Proof.Machine

theorem step_turn (s : State) (t : Turn) (rest : List Turn) :
    step { s with turns := t :: rest } = turnStep t { s with turns := rest } := rfl

theorem step_engine (s : State) (rest : List Turn) :
    step { s with turns := .engine :: rest } = engineStep { s with turns := rest } := rfl

theorem step_host (s : State) (a : Access) (rest : List Turn) :
    step { s with turns := .host a :: rest } = hostStep a { s with turns := rest } := rfl

theorem step_reset (s : State) (rest : List Turn) :
    step { s with turns := .reset :: rest } = .next ({ s with turns := rest } : State).rst := rfl

theorem step_nil {s : State} (h : s.turns = []) : step s = engineStep s := by
  simp [step, nextStep, h]

/-- A host write at an offset of the window. -/
theorem step_write (s : State) {off : Nat} (h : off < 0x3000) (width : Nat) (v : Word) (rest : List Turn) :
    step { s with turns := .host (.write (s.cfg.base + off) width v) :: rest } =
      .next (({ s with turns := rest } : State).access off (.write (s.cfg.base + off) width v)) := by
  rw [step_host]
  simp [hostStep, Access.addr, windowOffset_base_add s.cfg h]

/-- A host read at an offset of the window. -/
theorem step_read (s : State) {off : Nat} (h : off < 0x3000) (width : Nat) (rest : List Turn) :
    step { s with turns := .host (.read (s.cfg.base + off) width) :: rest } =
      .next (({ s with turns := rest } : State).access off (.read (s.cfg.base + off) width)) := by
  rw [step_host]
  simp [hostStep, Access.addr, windowOffset_base_add s.cfg h]

/-- A host write that reaches a register of the map. -/
theorem step_write_slot (s : State) {off : Nat} {sl : Slot} (h : off < 0x3000) (ha : off % 4 = 0)
    (hs : slotAt s.cfg off = some sl) (hk : sl.isKey = false) (v : Word) (rest : List Turn) :
    step { s with turns := .host (.write (s.cfg.base + off) 4 v) :: rest } =
      .next { ({ s with turns := rest } : State).writeSlot v sl with resp := some .accepted } := by
  rw [step_write s h]
  simp only [State.access]
  rw [busWrite_of_slot (s := { s with turns := rest }) v (busSlot_of_slotAt ha hs) hk]

/-- A host read that reaches a register of the map. -/
theorem step_read_slot (s : State) {off : Nat} {sl : Slot} (h : off < 0x3000) (ha : off % 4 = 0)
    (hs : slotAt s.cfg off = some sl) (rest : List Turn) :
    step { s with turns := .host (.read (s.cfg.base + off) 4) :: rest } =
      .next { s with turns := rest, resp := some (.data (s.readSlot sl)) } := by
  rw [step_read s h]
  simp only [State.access]
  rw [busRead_of_slot (s := { s with turns := rest }) (busSlot_of_slotAt ha hs)]
  cases sl <;> rfl

theorem engineStep_idle {s : State} (h : s.eng = .idle) : engineStep s = .next s := by
  simp [engineStep, h]

theorem engineStep_ok {s : State} {c : Word} {lat : Latch} {mic : Mic} {i : Instr} (h : s.eng = .busy c lat mic)
    (hd : decode c = .ok i) : engineStep s = exec i s := by
  simp [engineStep, h, hd]

theorem engineStep_illegal {s : State} {c : Word} {lat : Latch} {mic : Mic} {e : Illegal} (h : s.eng = .busy c lat mic)
    (hd : decode c = .error e) : engineStep s = .next (s.raise (illegalError c)) := by
  simp [engineStep, h, hd]

/-- Everything an engine step can do: nothing while idle, one step of the running command, or the ILLEGAL completion. -/
theorem engineStep_cases (s : State) :
    (s.eng = .idle ∧ engineStep s = .next s) ∨
    (∃ c lat mic i, s.eng = .busy c lat mic ∧ decode c = .ok i ∧ engineStep s = exec i s) ∨
    (∃ c lat mic e, s.eng = .busy c lat mic ∧ decode c = .error e ∧
      engineStep s = .next (s.raise (illegalError c))) := by
  cases h : s.eng with
  | idle => exact .inl ⟨rfl, engineStep_idle h⟩
  | busy c lat mic =>
    cases hd : decode c with
    | ok i => exact .inr (.inl ⟨c, lat, mic, i, rfl, hd, engineStep_ok h hd⟩)
    | error e => exact .inr (.inr ⟨c, lat, mic, e, rfl, hd, engineStep_illegal h hd⟩)

/-- The engine never stops the machine. -/
theorem engineStep_next (s : State) : ∃ t, engineStep s = .next t := by
  rcases engineStep_cases s with ⟨_, e⟩ | ⟨_, _, _, i, _, _, e⟩ | ⟨_, _, _, _, _, _, e⟩
  · exact ⟨_, e⟩
  · rw [e]
    exact exec_next i s
  · exact ⟨_, e⟩

/-- Everything a step can do: the engine's step, a host's access, reset. -/
theorem step_cases (s : State) :
    (s.turns = [] ∧ step s = engineStep s) ∨
    (∃ rest, s.turns = .engine :: rest ∧ step s = engineStep { s with turns := rest }) ∨
    (∃ a rest, s.turns = .host a :: rest ∧ step s = hostStep a { s with turns := rest }) ∨
    (∃ rest, s.turns = .reset :: rest ∧ step s = .next ({ s with turns := rest } : State).rst) := by
  unfold step nextStep
  cases h : s.turns with
  | nil => exact .inl ⟨rfl, rfl⟩
  | cons t rest =>
    cases t with
    | engine => exact .inr (.inl ⟨rest, rfl, rfl⟩)
    | host a => exact .inr (.inr (.inl ⟨a, rest, rfl, rfl⟩))
    | reset => exact .inr (.inr (.inr ⟨rest, rfl, rfl⟩))

/-! ### The end of a command, in the claims' words -/

theorem finish_eq_ended (s : State) (code : ErrCode) (res : Bool) (info : Word) :
    s.finish code res info = ended code res info s := rfl

theorem raise_eq_ended (s : State) (e : CmdError) : s.raise e = ended e.code false e.info s := rfl

end Sys2Proof.Machine
end

