-- ==== Sys2Proof/Tests/Slice0.lean ====
section
/-! SUPPORT. The model's own tests. Expected values come from the spec: its encodings (R91 to R103), its vectors
(95_test_vectors.md, cited by id: CT, MX, MI, GC, MR, PG, KG, TR, SQ, BU) and its rules. The last part gives, for every
obligation with hypotheses, a named witness that meets them all. -/

namespace Sys2Proof.Tests

open Sys2Proof Sys2Proof.Machine

/-! ### Helpers -/

/-- The state of an outcome that goes on. -/
def nextOf : Host.Outcome State Fault Refusal → Option State
  | .next s => some s
  | .fault _ => none
  | .refused _ => none

/-- The reset state with `R0`, `R1`, `R2`, the round count, the source and the bytes of `RNGQ` (the conventions of
95_test_vectors.md, section 0). -/
def ready (a b m : Nat) (k : BitVec 16 := 1) (src : RngSrc := .fifo) (bytes : List Byte := []) : State :=
  { State.reset with
    regs := #v[a, b, m, 0, 0, 0, 0, 0]
    ctrl := { State.reset.ctrl with rngsrc := src }
    mrRounds := k
    rng := ⟨bytes, 0⟩ }

/-- The key pair of vector KG1. -/
def kg1 : KeyBank := ⟨61, 53, 3233, 3120, 65537, 2753⟩

/-- `s` with the key pair of vector KG1. -/
def withKey (s : State) : State := { s with key := kg1, keyValid := true }

/-- `s` with a command word running under the latch an accept makes. -/
def running (s : State) (c : Word) (mic : Mic := .empty) : State := { s with eng := .busy c s.liveLatch mic }

/-- What a word leaves that is accepted and takes one engine step: one register, `STATUS`, `ERRINFO`, `RNG_LEVEL`. -/
def after (s : State) (w : Nat) (i : Fin 8) : Option (Nat × Word × Word × Nat) :=
  (nextOf (step (s.withFetchWord 32 w))).map fun t => (t.regs[i], t.statusWord, t.errinfo, t.rng.queue.length)

/-- What the bus answers to one host access, and `STATUS` after it. -/
def answer (s : State) (a : Access) : Option (Option BusResp × Word) :=
  (nextOf (step { s with turns := [.host a] })).map fun t => (t.resp, t.statusWord)

/-! ### Well-formed commands: one ill-formed term for each check (R95) -/

theorem test_wf_modexp : Instr.wf (.modexp 7 7 7 7) = true ∧ Instr.wf (.modexp 8 0 0 0) = false ∧
    Instr.wf (.modexp 0 8 0 0) = false ∧ Instr.wf (.modexp 0 0 8 0) = false ∧ Instr.wf (.modexp 0 0 0 15) = false := by
  decide

theorem test_wf_modinv : Instr.wf (.modinv 7 7 7) = true ∧ Instr.wf (.modinv 8 0 0) = false ∧
    Instr.wf (.modinv 0 8 0) = false ∧ Instr.wf (.modinv 0 0 8) = false := by decide

theorem test_wf_gcd : Instr.wf (.gcd 7 7 7) = true ∧ Instr.wf (.gcd 8 0 0) = false ∧
    Instr.wf (.gcd 0 8 0) = false ∧ Instr.wf (.gcd 0 0 8) = false := by decide

theorem test_wf_one_source : Instr.wf (.mrtest 7) = true ∧ Instr.wf (.mrtest 8) = false ∧
    Instr.wf (.primegen 7 65535) = true ∧ Instr.wf (.primegen 8 1) = false := by decide

theorem test_wf_transform : Instr.wf (.encrypt 7 7) = true ∧ Instr.wf (.encrypt 8 0) = false ∧
    Instr.wf (.encrypt 0 8) = false ∧ Instr.wf (.decrypt 7 7) = true ∧ Instr.wf (.decrypt 8 0) = false ∧
    Instr.wf (.decrypt 0 8) = false := by decide

/-! ### Decoding: words written out from the fields of R91 and R92 -/

/-- `nop`: every bit 0 (R93). -/
theorem test_decode_nop : decode 0b0000_0000_0000_0000_0000_0000_0000_0000 = .ok .nop := by decide

/-- `modexp r3, r0, r1, r2`, then each field at 7. -/
theorem test_decode_modexp : decode 0b0000_0001_0011_0000_0001_0010_0000_0000 = .ok (.modexp 3 0 1 2) ∧
    decode 0b0000_0001_0111_0110_0101_0100_0000_0000 = .ok (.modexp 7 6 5 4) := by decide

/-- `modinv r2, r0, r1`. -/
theorem test_decode_modinv : decode 0b0000_0010_0010_0000_0001_0000_0000_0000 = .ok (.modinv 2 0 1) := by decide

/-- `gcd r4, r2, r3`. -/
theorem test_decode_gcd : decode 0b0000_0011_0100_0010_0011_0000_0000_0000 = .ok (.gcd 4 2 3) := by decide

/-- `mrtest r5`. -/
theorem test_decode_mrtest : decode 0b0000_0100_0000_0101_0000_0000_0000_0000 = .ok (.mrtest 5) := by decide

/-- `primegen r0, 4` and `primegen r7, 0x8001`: the immediate is unsigned (R97). -/
theorem test_decode_primegen : decode 0b0000_0101_0000_0000_0000_0000_0000_0100 = .ok (.primegen 0 4) ∧
    decode 0b0000_0101_0111_0000_1000_0000_0000_0001 = .ok (.primegen 7 0x8001) := by decide

/-- `keygen 64`. -/
theorem test_decode_keygen : decode 0b0000_0110_0000_0000_0000_0000_0100_0000 = .ok (.keygen 64) := by decide

/-- `encrypt r1, r0`. -/
theorem test_decode_encrypt : decode 0b0000_0111_0001_0000_0000_0000_0000_0000 = .ok (.encrypt 1 0) := by decide

/-- `decrypt r2, r1`. -/
theorem test_decode_decrypt : decode 0b0000_1000_0010_0001_0000_0000_0000_0000 = .ok (.decrypt 2 1) := by decide

/-- CT2 to CT12: words that are no command. -/
theorem test_illegal_words : decode 0x01381200 = .error .registerField ∧ decode 0x01301201 = .error .unusedField ∧
    decode 0x09000000 = .error .reservedOpcode ∧ decode 0xFF000000 = .error .reservedOpcode ∧
    decode 0x04150000 = .error .unusedField ∧ decode 0x04058000 = .error .unusedField ∧
    decode 0x06100010 = .error .unusedField ∧ decode 0x05010001 = .error .unusedField ∧
    decode 0x07100001 = .error .unusedField ∧ decode 0x02201100 = .error .unusedField ∧
    decode 0x00000001 = .error .unusedField := by decide

/-- The assembler (R101): the syntax of R103's first line, and its refusals. -/
theorem test_assembler : assemble "modexp" [3, 0, 1, 2] = some (.modexp 3 0 1 2) ∧ assemble "gcd" [8, 0, 0] = none ∧
    assemble "keygen" [65536] = none ∧ assemble "primegen" [0, 65535] = some (.primegen 0 65535) := by decide

/-! ### One engine step per command -/

/-- CT1: `STATUS` is DONE only. -/
theorem test_nop : after State.reset 0x00000000 0 = some (0, 0x2, 0, 0) := by decide +kernel

/-- MX14: the destination is a source; MX6: a zero modulus leaves `R3` and gives DIVZERO. -/
theorem test_modexp : after (ready 20 3 13) 0x01001200 0 = some (5, 0x2, 0, 0) := by decide +kernel

theorem test_modexp_zero_modulus : after (ready 5 0 0) 0x01301200 3 = some (0, 0x22, 0, 0) := by decide +kernel

/-- MI2: an operand above the modulus; MI6: NOTCOPRIME with the gcd. -/
theorem test_modinv : after (ready 14 11 0) 0x02201000 2 = some (4, 0x2, 0, 0) := by decide +kernel

theorem test_modinv_not_coprime : after (ready 6 9 0) 0x02201000 2 = some (0, 0x32, 3, 0) := by decide +kernel

/-- GC1; GC3: `gcd(a, 0) = a`. -/
theorem test_gcd : after (ready 48 18 0) 0x03401000 4 = some (6, 0x2, 0, 0) := by decide +kernel

theorem test_gcd_zero : after (ready 12 0 0) 0x03401000 4 = some (12, 0x2, 0, 0) := by decide +kernel

/-- MR3: two rounds of 341, the second fails; MR8: the fifth round of 61 lacks a byte. -/
theorem test_mrtest : after (ready 341 0 0 2 .fifo [0, 2, 0, 0]) 0x04000000 0 = some (341, 0x2, 0, 0) := by
  decide +kernel

theorem test_mrtest_bytes_run_out : after (ready 61 0 0 5 .fifo [0, 0, 0, 0]) 0x04000000 0 = some (61, 0x92, 1, 0) := by
  decide +kernel

/-- PG4: a candidate of two bytes; PG2: a candidate of 1 is out of the test's domain. -/
theorem test_primegen : after (ready 0 0 0 1 .fifo [0, 7, 0, 0]) 0x05100002 1 = some (7, 0x2, 0, 1) := by decide +kernel

theorem test_primegen_domain : after (ready 0 0 0 1 .fifo [1, 0, 0, 0]) 0x05100001 1 = some (0, 0x42, 1, 3) := by
  decide +kernel

/-- The last step of KG1: with `p = 61`, the candidate 53 gives the key pair. -/
theorem test_keygen :
    (nextOf (step (running (ready 0 0 0 1 .fifo [0x35, 0]) 0x06000010 (.genQ 61)))).map
      (fun t => (t.key, t.statusWord, t.attempts)) = some (⟨61, 53, 3233, 3120, 65537, 2753⟩, 0xA, 1) := by
  decide +kernel

/-- The second prime of KG2 equals the first: both are drawn again, and RESTARTS counts. -/
theorem test_keygen_equal_primes :
    (nextOf (step (running (ready 0 0 0 1 .fifo [0x3D, 0]) 0x06000010 (.genQ 61)))).map
      (fun t => (t.keyValid, t.mic, t.restarts)) = some (false, .genP, 1) := by decide +kernel

/-- TR1; the range check refuses `KP.N` itself. -/
theorem test_encrypt : after (withKey (ready 65 0 0)) 0x07100000 1 = some (2790, 0xA, 0, 0) := by decide +kernel

theorem test_encrypt_range : after (withKey (ready 3233 0 0)) 0x07100000 1 = some (0, 0x8A, 0, 0) := by decide +kernel

/-- TR2; without a key pair NOKEY. -/
theorem test_decrypt : after (withKey (ready 2790 0 0)) 0x08200000 2 = some (65, 0xA, 0, 0) := by decide +kernel

theorem test_decrypt_no_key : after (ready 65 0 0) 0x08200000 2 = some (0, 0x72, 0, 0) := by decide +kernel

/-- CT4: a reserved opcode. -/
theorem test_illegal_step : after State.reset 0x09000000 0 = some (0, 0x12, 0x09000000, 0) := by decide +kernel

/-! ### The bus -/

/-- BU1, BU10, BU11: ID, CTRL and MR_ROUNDS after reset. -/
theorem test_read_registers : answer State.reset (.read 0x000 4) = some (some (.data 0x4D520102), 0) ∧
    answer State.reset (.read 0x004 4) = some (some (.data 0x4), 0) ∧
    answer State.reset (.read 0x010 4) = some (some (.data 0x28), 0) := by decide +kernel

/-- BU2 to BU6: bus errors. -/
theorem test_bus_errors : answer State.reset (.read 0x002 4) = some (some (.error (.busFault 0x002)), 0) ∧
    answer State.reset (.read 0x008 1) = some (some (.error (.busFault 0x008)), 0) ∧
    answer State.reset (.read 0x02C 4) = some (some (.error (.busFault 0x02C)), 0) ∧
    answer State.reset (.read 0x1008 4) = some (some (.error (.busFault 0x1008)), 0) ∧
    answer State.reset (.write 0x2000 4 1) = some (some (.error (.busFault 0x2000)), 0) := by decide +kernel

/-- BU9: the least significant word is first. -/
theorem test_word_order :
    (nextOf (steps 2 { State.reset with turns := [w32 .default 0x1000 0x89ABCDEF, w32 .default 0x1004 0x01234567] })).map
      (fun t => t.regs[0]) = some 0x0123456789ABCDEF := by decide +kernel

/-- SQ1: a register written while busy is not, and sets WERR; SQ2: a command while busy sets OVR. -/
theorem test_writes_while_busy :
    answer (running (ready 20 3 13) 0x01301200) (.write 0x1000 4 7) = some (some .accepted, 0x201) ∧
    answer (running State.reset 0) (.write 0x00C 4 0) = some (some .accepted, 0x101) := by decide +kernel

/-- SQ5: the write that does not fit sets FOVR. -/
theorem test_fifo_overflow :
    answer { State.reset with rng := ⟨List.replicate 256 0, 0⟩ } (.write 0x024 4 0) = some (some .accepted, 0x400) := by
  decide +kernel

/-- A word `0xAABBCCDD` drawn as four bytes gives the integer `0xAABBCCDD` (R69). -/
theorem test_byte_order : drawBytes .fifo 4 ⟨bytesOf 0xAABBCCDD, 0⟩ = (.ok 0xAABBCCDD, ⟨[], 0⟩) := by decide +kernel

/-! ### Witnesses: for every obligation with hypotheses, data that meet them all -/

/-- The least and the greatest `OPW` an implementation may have (R8), and a base and a depth other than the default's. -/
def small : Params := ⟨64, 0x8000, 1⟩
def large : Params := ⟨4096, 0x4000, 64⟩

theorem witness_DecodeOfEncode : Instr.wf (.modexp 7 0 7 0) = true ∧ Instr.wf (.modexp 7 0 7 8) = false := by decide

theorem witness_DecodedWordIsItsEncoding : decode 0x05700001 = .ok (.primegen 7 1) := by decide

theorem witness_RowsAreDisjoint : ∃ r ∈ rows, r.hits 0x03423000 = true :=
  ⟨⟨0x03, 0xFF888FFF, 0x00888000, fun c => .gcd (fieldRd c) (fieldRa c) (fieldRb c)⟩, by simp [rows], by decide⟩

theorem witness_ReservedOpcodeEndsIllegal : 9 ≤ (0x09000000 : Word).toNat / 2 ^ 24 ∧ 9 ≤ (0xFFFFFFFF : Word).toNat / 2 ^ 24 ∧
    (running State.reset 0x09000000).eng = .busy 0x09000000 State.reset.liveLatch .empty := by decide

theorem witness_EngineStepRunsTheDecodedCommand :
    (running State.reset 0).eng = .busy 0 State.reset.liveLatch .empty ∧ decode 0 = .ok .nop ∧
    (running State.reset 0).turns = [] ∧ State.reset.eng = .idle ∧ State.reset.turns = [] := by decide

theorem witness_LoadedWordRunsNext : decodeTableWord 32 0x03423000 = some (.gcd 4 2 3) := by decide

theorem witness_IllegalWordEndsIllegal :
    (running State.reset 0x01381200).eng = .busy 0x01381200 State.reset.liveLatch .empty ∧
    decode 0x01381200 = .error .registerField := by decide

/-- An idle block and a busy one: for CommandIsAcceptedWhenIdle, CommandWhileBusyIsDropped, ControlRegister. -/
theorem witness_IdleAndBusy : State.reset.eng = .idle ∧ (running State.reset 0).eng ≠ .idle := by decide

/-- WritesWhileBusy: an idle and a busy state, and both ends of a big register. -/
theorem witness_WritesWhileBusy : State.reset.eng = .idle ∧ (running State.reset 0).eng ≠ .idle ∧
    (0 < State.reset.cfg.words ∧ 1 < State.reset.cfg.words ∧ State.reset.cfg.words = 2) ∧ State.reset.cfg.wf = true := by
  decide

theorem witness_RunningCommandReadsOnlyItsLatch : (running (ready 65 17 3233) 0).eng ≠ .idle ∧
    ∃ t, exec (.modexp 3 0 1 2) (running (ready 65 17 3233) 0) = .next t := ⟨by decide, _, rfl⟩

theorem witness_HostCannotDisturbARunningCommand : (running State.reset 0).eng ≠ .idle ∧
    ∃ t, step { running State.reset 0 with turns := [.host (.write 0x1000 4 7)] } = .next t := ⟨by decide, _, rfl⟩

/-- A step that leaves the command running (an even candidate), and one that ends in an error. -/
theorem witness_NothingIsCommittedWithoutSuccess :
    ((running (ready 0 0 0 1 .fifo [0x3C]) 0x05100001).eng ≠ .idle ∧
      ∃ t, exec (.primegen 1 1) (running (ready 0 0 0 1 .fifo [0x3C]) 0x05100001) = .next t ∧ t.eng ≠ .idle) ∧
    ∃ t, exec (.modexp 3 0 1 2) (running State.reset 0x01301200) = .next t ∧ t.eng = .idle ∧ t.status.err ≠ .ok :=
  ⟨⟨by decide, _, rfl, by decide +kernel⟩, _, rfl, by decide +kernel, by decide +kernel⟩

theorem witness_OneStepCommandsCompleteAtOnce :
    oneStep (.mrtest 0) = true ∧ oneStep .nop = true ∧ oneStep (.decrypt 0 0) = true := by decide

/-- A completion with RESULT 1 (MR1). -/
theorem witness_CompletionSignalsDone : (running (ready 5 0 0 1 .fifo [0]) 0x04000000).eng ≠ .idle ∧
    ∃ t, exec (.mrtest 0) (running (ready 5 0 0 1 .fifo [0]) 0x04000000) = .next t ∧ t.eng = .idle ∧
      t.status.result = true := ⟨by decide, _, rfl, by decide +kernel, by decide +kernel⟩

/-- InterruptIsALevel: the interrupt raised in an idle block, and a word for each write that lowers it. -/
theorem witness_InterruptIsALevel :
    (let s := { State.reset with ctrl := ⟨true, .trng, true⟩, status := { State.reset.status with done := true } };
      s.irq = true ∧ s.eng = .idle) ∧
    (0x2 : Word).getLsbD 1 = true ∧ (0x4 : Word).getLsbD 0 = false := by decide

/-- A safe state whose accesses touch both ends of the window, and an access one past it, which stops. -/
theorem witness_OnlyAnAccessOutsideTheWindowStops :
    State.Safe { State.reset with turns := [.host (.read 0 4), .host (.read 0x2FFF 4)] } ∧
    step { State.reset with turns := [.host (.read 0x3000 4)] } = .fault (.outsideWindow 0x3000) := by
  refine ⟨?_, rfl⟩
  intro a h
  simp only [List.mem_cons, Turn.host.injEq, List.not_mem_nil, or_false] at h
  rcases h with rfl | rfl <;> decide

/-- Each clause at the ends of its range, with two words in a big register. -/
theorem witness_BusErrorChangesNothing : State.reset.cfg.words = 2 ∧ (3 : Nat) ≠ 4 ∧ 0x001 % 4 ≠ 0 ∧
    (0x02C ≤ 0x02C ∧ 0x02C < 0x1000) ∧ (0x02C ≤ 0xFFC ∧ 0xFFC < 0x1000) ∧ (0x2C00 ≤ 0x2C00 ∧ 0x2FFC < 0x3000) ∧
    (0x1000 ≤ 0x1008 ∧ 4 * State.reset.cfg.words ≤ 0x1008 % 0x200) ∧
    (0x1000 ≤ 0x2BFC ∧ 4 * State.reset.cfg.words ≤ 0x2BFC % 0x200) := by decide

theorem witness_ReadOnlyAndWriteOnlyRegisters : (State.resetWith large).cfg.wf = true ∧ 5 < 6 ∧
    127 < (State.resetWith large).cfg.words ∧ (State.resetWith large).cfg.words = 128 := by decide

theorem witness_ReadsChangeNothing :
    ∃ t, step { State.reset with turns := [.host (.read 0x008 4)] } = .next t := ⟨_, rfl⟩

/-- IdentityRegister, ResetMeetsTheInvariant: both ends of the range of `OPW`. -/
theorem witness_Parameters : small.wf = true ∧ large.wf = true ∧ (State.resetWith small).cfg.wf = true ∧
    (State.resetWith large).cfg.wf = true := by decide

/-- RegistersReadTheirValue: at reset, and `CTRL` (BU12's value) while a command runs. -/
theorem witness_RegistersReadTheirValue : State.reset.cfg.wf = true ∧
    (let s := running { State.reset with ctrl := ⟨true, .fifo, true⟩ } 0;
      s.eng ≠ .idle ∧
      (7 : Word).toNat = s.ctrl.ie.toNat + 2 * (if s.ctrl.rngsrc = .fifo then 1 else 0) + 4 * s.ctrl.rchk.toNat) ∧
    State.reset.rng.queue.length ≤ State.reset.cfg.fifoBytes ∧ State.reset.cfg.fifoBytes < 2 ^ 32 ∧
    (0x010, (40 : Word).toNat) ∈ [(0x010, State.reset.mrRounds.toNat), (0x014, State.reset.retryMax.toNat)] ∧
    1 < State.reset.cfg.words ∧ (0 : Word).toNat = State.reset.regs[7] / 2 ^ (32 * 1) % 2 ^ 32 ∧
    [State.reset.key.p, State.reset.key.q, State.reset.key.n, State.reset.key.phi, State.reset.key.e,
      State.reset.key.d][5]? = some 0 := by decide +kernel

theorem witness_BigRegisterWordReadsBack : (State.resetWith large).cfg.wf = true ∧
    (State.resetWith large).eng = .idle ∧ 0 < (State.resetWith large).cfg.words ∧
    127 < (State.resetWith large).cfg.words := by decide

theorem witness_LdbigLoadsTheValue : State.reset.cfg.wf = true ∧ State.reset.eng = .idle ∧
    State.reset.regs[7] < 2 ^ State.reset.cfg.opw ∧ 2 ^ 64 - 1 < 2 ^ State.reset.cfg.opw := by decide +kernel

/-- Room for exactly four bytes; room for three; a busy block. -/
theorem witness_RandomFifoPush :
    ({ State.reset with rng := ⟨List.replicate 252 0, 0⟩ } : State).rng.queue.length + 4 ≤ 4 * State.reset.cfg.fifoDepth ∧
    4 * State.reset.cfg.fifoDepth < ({ State.reset with rng := ⟨List.replicate 253 0, 0⟩ } : State).rng.queue.length + 4 ∧
    State.reset.eng = .idle ∧ (running State.reset 0).eng ≠ .idle := by decide +kernel

/-- RepeatedSquaringIsThePower and ExtendedEuclidInverts: a modulus of 1, and another. -/
theorem witness_Moduli : 1 ≤ 1 ∧ Nat.gcd 0 1 = 1 ∧ 1 ≤ 3120 ∧ Nat.gcd 65537 3120 = 1 := by decide

/-- ModexpWritesThePower: a modulus of 1 and of 0. -/
theorem witness_ModexpWritesThePower : (ready 3 0 1).operand 2 = 1 ∧ (ready 5 0 0).operand 2 = 0 := by decide

/-- ModinvWritesTheInverse: a coprime pair, a zero modulus, a pair with a common divisor. -/
theorem witness_ModinvWritesTheInverse :
    ((ready 0 1 0).operand 1 ≠ 0 ∧ Nat.gcd ((ready 0 1 0).operand 0) ((ready 0 1 0).operand 1) = 1) ∧
    (ready 4 0 0).operand 1 = 0 ∧
    ((ready 0 7 0).operand 1 ≠ 0 ∧ Nat.gcd ((ready 0 7 0).operand 0) ((ready 0 7 0).operand 1) ≠ 1) := by decide

/-- BytesAreDrawnBigEndian: an answer, a queue one byte short, a queue of exactly the bytes. -/
theorem witness_BytesAreDrawnBigEndian :
    drawBytes .fifo 2 ⟨[1, 2], 0⟩ = (.ok 258, ⟨[], 0⟩) ∧ ([1] : List Byte).length < 2 ∧
    ([1, 2] : List Byte) = [1, 2] ++ [] ∧ ([1, 2] : List Byte)[1]? = some 2 := by decide +kernel

/-- DrawnBaseIsInRange, RoundIsTheStrongTest: the least `n` the test admits. -/
theorem witness_DrawnBaseIsInRange : 5 % 2 = 1 ∧ 5 ≤ 5 ∧ drawBase .fifo 5 ⟨[1], 0⟩ = (.ok 3, ⟨[], 0⟩) := by
  decide +kernel

/-- MrtestWithoutDraws: 2 and 0, 1 and 3, and 5 with no round. -/
theorem witness_MrtestWithoutDraws : (ready 2 0 0).operand 0 % 2 = 0 ∧ (ready 0 0 0).operand 0 % 2 = 0 ∧
    (ready 1 0 0).operand 0 = 1 ∧ (ready 3 0 0).operand 0 = 3 ∧
    ((ready 5 0 0 0).operand 0 % 2 = 1 ∧ 5 ≤ (ready 5 0 0 0).operand 0 ∧ (ready 5 0 0 0).lat.k = 0) := by decide

/-- 4 passes a round of 341 (MR2): `4^85 mod 341 = 1`. -/
theorem passes_341_4 : PassesRound 341 4 := ⟨85, 2, by decide, by decide, .inl (by decide +kernel)⟩

/-- 2 fails a round of 341 (MR4). -/
theorem fails_341_2 : ¬ PassesRound 341 2 := by
  rintro ⟨d, e, hd, he, h⟩
  have he8 : e ≤ 8 := by
    by_contra hlt
    have h512 : 2 ^ 9 ∣ d * 2 ^ e := (Nat.pow_dvd_pow 2 (by omega)).mul_left d
    rw [← he] at h512
    exact absurd h512 (by decide)
  have key : d = 85 ∧ e = 2 := by
    interval_cases e <;> omega
  obtain ⟨rfl, rfl⟩ := key
  rcases h with h | ⟨r, hr, h⟩
  · exact absurd h (by decide +kernel)
  · interval_cases r <;> exact absurd h (by decide +kernel)

/-- MrtestWithHostFifo, the three clauses: one round that passes with `k = 1`; a first round that fails; a first round
that lacks its bytes. -/
theorem witness_MrtestWithHostFifo :
    (byteLen 341 = 2 ∧ 341 % 2 = 1 ∧ (ready 341 0 0 1 .fifo [0, 2]).lat.src = .fifo ∧
      (ready 341 0 0 1 .fifo [0, 2]).lat.k.toNat = 1) ∧
    (∀ i, i < 1 → (i + 1) * 2 ≤ (ready 341 0 0 1 .fifo [0, 2]).rng.queue.length ∧
      PassesRound 341 (fifoBase 341 (ready 341 0 0 1 .fifo [0, 2]).rng.queue i)) ∧
    ((0 + 1) * 2 ≤ (ready 341 0 0 1 .fifo [0, 0]).rng.queue.length ∧
      ¬ PassesRound 341 (fifoBase 341 (ready 341 0 0 1 .fifo [0, 0]).rng.queue 0)) ∧
    (ready 341 0 0 1 .fifo [0]).rng.queue.length < (0 + 1) * 2 := by
  refine ⟨by decide +kernel, ?_, ⟨by decide, ?_⟩, by decide⟩
  · intro i hi
    obtain rfl : i = 0 := by omega
    refine ⟨by decide, ?_⟩
    have : fifoBase 341 (ready 341 0 0 1 .fifo [0, 2]).rng.queue 0 = 4 := by decide +kernel
    rw [this]
    exact passes_341_4
  · have : fifoBase 341 (ready 341 0 0 1 .fifo [0, 0]).rng.queue 0 = 2 := by decide +kernel
    rw [this]
    exact fails_341_2

/-- 9 has no strong liar (MR10): no base in `[2, 7]` passes a round of 9. -/
theorem fails_9 (v : Nat) : ¬ PassesRound 9 (2 + v % 6) := by
  rintro ⟨d, e, hd, he, h⟩
  have he3 : e ≤ 3 := by
    by_contra hlt
    have h16 : 2 ^ 4 ∣ d * 2 ^ e := (Nat.pow_dvd_pow 2 (by omega)).mul_left d
    rw [← he] at h16
    exact absurd h16 (by decide)
  have key : d = 1 ∧ e = 3 := by
    interval_cases e <;> omega
  obtain ⟨rfl, rfl⟩ := key
  have hv : v % 6 < 6 := Nat.mod_lt _ (by decide)
  generalize v % 6 = w at hv h
  rcases h with h | ⟨r, hr, h⟩
  · interval_cases w <;> exact absurd h (by decide)
  · interval_cases r <;> interval_cases w <;> exact absurd h (by decide)

/-- 5 is prime, so every base in `[2, 3]` passes a round of 5. -/
theorem passes_5 (v : Nat) : PassesRound 5 (2 + v % 2) := by
  refine ⟨1, 2, by decide, by decide, .inr ⟨1, by decide, ?_⟩⟩
  have hv : v % 2 < 2 := Nat.mod_lt _ (by decide)
  generalize v % 2 = w at hv
  interval_cases w <;> decide

/-- MrtestWithTrng, whatever the free values: 5 passes its one round, 9 fails its first. -/
theorem witness_MrtestWithTrng :
    ((ready 5 0 0 1 .trng).operand 0 = 5 ∧ (ready 5 0 0 1 .trng).lat.src = .trng ∧
      (ready 5 0 0 1 .trng).lat.k.toNat = 1 ∧
      ∀ i, i < 1 → PassesRound 5 (trngBase 5 (ready 5 0 0 1 .trng).rng.draws i)) ∧
    ((ready 9 0 0 1 .trng).operand 0 = 9 ∧ 0 < (ready 9 0 0 1 .trng).lat.k.toNat ∧
      ¬ PassesRound 9 (trngBase 9 (ready 9 0 0 1 .trng).rng.draws 0)) :=
  ⟨⟨by decide, by decide, by decide, fun _ _ => passes_5 _⟩, by decide, by decide, fails_9 _⟩

/-- PrimesAlwaysPass: 5 with the TRNG, and with a queue that holds exactly the bytes of its rounds. -/
theorem witness_PrimesAlwaysPass : Nat.Prime ((ready 5 0 0 1 .trng).operand 0) ∧ 5 ≤ (ready 5 0 0 1 .trng).operand 0 ∧
    (ready 5 0 0 1 .trng).lat.src = .trng ∧
    (ready 5 0 0 2 .fifo [0, 0]).lat.k.toNat * byteLen ((ready 5 0 0 2 .fifo [0, 0]).operand 0) ≤
      (ready 5 0 0 2 .fifo [0, 0]).rng.queue.length := by
  refine ⟨?_, by decide, by decide, by decide +kernel⟩
  show Nat.Prime 5
  norm_num

/-- PrimegenRefusesTheLength: a length of 0, and one byte more than `OPW` holds; 8 bytes are legal. -/
theorem witness_PrimegenRefusesTheLength : (0 : BitVec 16).toNat = 0 ∧
    State.reset.cfg.opw < 8 * (9 : BitVec 16).toNat ∧ 8 * (8 : BitVec 16).toNat ≤ State.reset.cfg.opw := by decide

/-- PrimegenMakesOneAttempt, clause by clause: the ceiling reached; a draw one byte short; a candidate that passes (61),
one that fails (60), one that raises (1). -/
theorem witness_PrimegenMakesOneAttempt : (1 : BitVec 16).toNat ≠ 0 ∧ 8 * (1 : BitVec 16).toNat ≤ State.reset.cfg.opw ∧
    (({ State.reset with retryMax := 2, attempts := 2 } : State).lat.rmax ≠ 0 ∧
      ({ State.reset with retryMax := 2, attempts := 2 } : State).lat.rmax ≤ 2) ∧
    ((ready 0 0 0).lat.rmax = 0 ∧ (ready 0 0 0).lat.src = .fifo ∧
      (ready 0 0 0).rng.queue.length < (1 : BitVec 16).toNat) ∧
    (drawBytes .fifo 1 ⟨[0x3D, 0], 0⟩ = (.ok 61, ⟨[0], 0⟩) ∧ millerRabin .fifo 61 1 ⟨[0], 0⟩ = (.ok true, ⟨[], 0⟩)) ∧
    (drawBytes .fifo 1 ⟨[0x3C], 0⟩ = (.ok 60, ⟨[], 0⟩) ∧ millerRabin .fifo 60 1 ⟨[], 0⟩ = (.ok false, ⟨[], 0⟩)) ∧
    (drawBytes .fifo 1 ⟨[1], 0⟩ = (.ok 1, ⟨[], 0⟩) ∧
      millerRabin .fifo 1 1 ⟨[], 0⟩ = (.error ⟨.domain, 1⟩, ⟨[], 0⟩)) := by decide +kernel

theorem witness_PrimegenEndsInFifoMode :
    (running (ready 0 0 0) 0x05100001).turns = [] ∧
    (running (ready 0 0 0) 0x05100001).eng = .busy 0x05100001 (ready 0 0 0).liveLatch .empty ∧
    decode 0x05100001 = .ok (.primegen 1 1) ∧ (ready 0 0 0).liveLatch.src = .fifo := by decide

/-- EveryStepKeepsTheCeiling: a PRIMEGEN under a ceiling of 2 with both candidates drawn, whose next step ends it. -/
theorem witness_EveryStepKeepsTheCeiling :
    State.CeilingKept (running { ready 0 0 0 with retryMax := 2, attempts := 2 } 0x05100001) ∧
    ∃ t, step (running { ready 0 0 0 with retryMax := 2, attempts := 2 } 0x05100001) = .next t := by
  refine ⟨?_, _, rfl⟩
  intro c lat mic h _ _
  cases h
  decide

/-- KeygenRefusesTheLength: the greatest length without a byte per prime, and the least that `OPW = 64` cannot hold; 16
and 79 are legal. -/
theorem witness_KeygenRefusesTheLength : (15 : BitVec 16).toNat / 16 = 0 ∧
    State.reset.cfg.opw < 16 * ((80 : BitVec 16).toNat / 16) ∧
    ((16 : BitVec 16).toNat / 16 ≠ 0 ∧ 16 * ((79 : BitVec 16).toNat / 16) ≤ State.reset.cfg.opw) := by decide

/-- KeygenMakesOneAttempt: the candidate 61 found first; 53 found after 61; 61 found after 61, and after 65538 (a `p` with
`p - 1` a multiple of 65537) with another candidate. -/
theorem witness_KeygenMakesOneAttempt : (16 : BitVec 16).toNat / 16 ≠ 0 ∧
    16 * ((16 : BitVec 16).toNat / 16) ≤ State.reset.cfg.opw ∧ (ready 0 0 0).liveLatch.rmax = 0 ∧
    (drawBytes .fifo 1 ⟨[0x35, 0], 0⟩ = (.ok 53, ⟨[0], 0⟩) ∧ millerRabin .fifo 53 1 ⟨[0], 0⟩ = (.ok true, ⟨[], 0⟩)) ∧
    (61 ≠ 53 ∧ 5 ≤ 61 ∧ Nat.gcd 65537 ((61 - 1) * (53 - 1)) = 1) ∧
    (drawBytes .fifo 1 ⟨[0x3D, 0], 0⟩ = (.ok 61, ⟨[0], 0⟩) ∧ millerRabin .fifo 61 1 ⟨[0], 0⟩ = (.ok true, ⟨[], 0⟩)) ∧
    Nat.gcd 65537 ((65538 - 1) * (61 - 1)) ≠ 1 := by decide +kernel

/-- KeygenAttemptThatFindsNothing: as for PRIMEGEN, with the byte of a 16-bit key. -/
theorem witness_KeygenAttemptThatFindsNothing : (16 : BitVec 16).toNat / 16 ≠ 0 ∧
    16 * ((16 : BitVec 16).toNat / 16) ≤ State.reset.cfg.opw ∧
    ((ready 0 0 0).lat.src = .fifo ∧ (ready 0 0 0).rng.queue.length < (16 : BitVec 16).toNat / 16) ∧
    (drawBytes .fifo 1 ⟨[0x3C], 0⟩ = (.ok 60, ⟨[], 0⟩) ∧ millerRabin .fifo 60 1 ⟨[], 0⟩ = (.ok false, ⟨[], 0⟩)) ∧
    (drawBytes .fifo 1 ⟨[3], 0⟩ = (.ok 3, ⟨[], 0⟩) ∧
      millerRabin .fifo 3 1 ⟨[], 0⟩ = (.error ⟨.domain, 3⟩, ⟨[], 0⟩)) := by decide +kernel

theorem witness_KeygenEndsInFifoMode :
    (running (ready 0 0 0) 0x06000010 .genP).turns = [] ∧
    (running (ready 0 0 0) 0x06000010 .genP).eng = .busy 0x06000010 (ready 0 0 0).liveLatch .genP ∧
    decode 0x06000010 = .ok (.keygen 16) ∧ (ready 0 0 0).liveLatch.src = .fifo := by decide

/-- OnlyKeygenAndResetWriteTheKey: a reset that clears a key pair, and a KEYGEN that commits one. -/
theorem witness_OnlyKeygenAndResetWriteTheKey :
    (∃ t, step { withKey State.reset with turns := [.reset] } = .next t ∧ t.key ≠ (withKey State.reset).key) ∧
    ∃ t, step (running (ready 0 0 0 1 .fifo [0x35, 0]) 0x06000010 (.genQ 61)) = .next t ∧
      t.key ≠ (ready 0 0 0 1 .fifo [0x35, 0]).key :=
  ⟨⟨_, rfl, by decide⟩, _, rfl, by decide +kernel⟩

/-- The key pair of KG1 is valid (S8). -/
theorem key_valid : kg1.Valid :=
  ⟨by decide, by decide, by decide, by decide, by decide, by decide, by decide, by decide, by decide⟩

/-- EncryptWritesThePower and DecryptWritesThePower: no key pair; an input of `KP.N` with the check on; `KP.N - 1` with
the check on; `KP.N` with the check off. -/
theorem witness_Transform : (ready 65 0 0).keyValid = false ∧ (withKey (ready 3233 0 0)).keyValid = true ∧
    (withKey (ready 3233 0 0)).lat.rchk = true ∧ (withKey (ready 3233 0 0)).key.n ≤ (withKey (ready 3233 0 0)).operand 0 ∧
    (withKey (ready 3232 0 0)).operand 0 < (withKey (ready 3232 0 0)).key.n ∧
    (withKey { ready 3233 0 0 with ctrl := ⟨false, .trng, false⟩ }).lat.rchk = false ∧
    (withKey (ready 3232 0 0)).key.Valid := ⟨by decide, by decide, by decide, by decide, by decide, by decide, key_valid⟩

theorem witness_DecryptUndoesEncrypt : (withKey (ready 3232 0 0)).keyValid = true ∧ (withKey (ready 3232 0 0)).key.Valid ∧
    Nat.Prime (withKey (ready 3232 0 0)).key.p ∧ Nat.Prime (withKey (ready 3232 0 0)).key.q ∧
    (withKey (ready 3232 0 0)).operand 0 < (withKey (ready 3232 0 0)).key.n := by
  refine ⟨by decide, key_valid, ?_, ?_, by decide⟩
  · show Nat.Prime 61
    norm_num
  · show Nat.Prime 53
    norm_num

theorem witness_FrameOfTheRegisterCommands : dest (.gcd 4 0 1) = some 4 ∧
    ∃ t, exec (.gcd 4 0 1) (ready 48 18 0) = .next t := ⟨by decide, _, rfl⟩

theorem witness_FrameOfTheDrawingCommands : dest (.mrtest 0) = none ∧
    ∃ t, exec (.primegen 1 1) (ready 0 0 0 1 .fifo [0x3D, 0]) = .next t := ⟨by decide, _, rfl⟩

/-- EveryStepKeepsTheInvariant: a KEYGEN in phase `GenQ`, in a state that meets the invariant and steps. -/
theorem witness_EveryStepKeepsTheInvariant :
    State.Inv (running (withKey (ready 0 0 0 1 .fifo [0x35, 0])) 0x06000010 (.genQ 61)) ∧
    ∃ t, step (running (withKey (ready 0 0 0 1 .fifo [0x35, 0])) 0x06000010 (.genQ 61)) = .next t := by
  refine ⟨⟨by decide, by decide +kernel, ?_, by decide, fun _ => key_valid, ?_⟩, _, rfl⟩
  · exact ⟨by decide +kernel, by decide +kernel, by decide +kernel, by decide +kernel, by decide +kernel, by decide +kernel⟩
  · exact ⟨16, by decide, by decide, by decide, by decide, by decide, by decide⟩

end Sys2Proof.Tests
end

/-! # State family, part 1: arithmetic

The ranges of the values the commands compute, and the inverse of R116. -/

namespace Sys2Proof.Machine

/-! ### Modular exponentiation (R111) -/

theorem modExpTurn_lt (t b i r : Nat) {m : Nat} (hm : 0 < m) : modExpTurn t b m i r < m := by
  unfold modExpTurn
  split <;> exact Nat.mod_lt _ hm

theorem modExpLoop_lt (t b i : Nat) {m r : Nat} (hm : 0 < m) (hr : r < m) : modExpLoop t b m i r < m := by
  induction i generalizing r with
  | zero => exact hr
  | succ i ih => exact ih (modExpTurn_lt t b i r hm)

theorem modExp_lt (a b : Nat) {m : Nat} (hm : 0 < m) : modExp a b m < m :=
  modExpLoop_lt _ _ _ hm (Nat.mod_lt _ hm)

/-! ### The extended Euclidean inverse (R116) -/

/-- The loop of R116 keeps `a * old_s ≡ old_r` and `a * s ≡ r` modulo `m`; with fuel for its turns it ends where `old_r` is
the gcd it began with. -/
theorem euclidLoop_modEq (a m : Nat) {fuel oldR r : Nat} {oldS s : Int} (hf : r < fuel)
    (hOld : a * oldS ≡ oldR [ZMOD m]) (hs : a * s ≡ r [ZMOD m]) :
    a * euclidLoop fuel oldR r oldS s ≡ Nat.gcd oldR r [ZMOD m] := by
  induction fuel generalizing oldR r oldS s with
  | zero => omega
  | succ fuel ih =>
    by_cases h0 : r = 0
    · simpa [euclidLoop, h0] using hOld
    · have hrem : oldR - oldR / r * r = oldR % r := by
        rw [Nat.mod_eq_sub_div_mul]
      have hlt : oldR % r < r := Nat.mod_lt _ (Nat.pos_of_ne_zero h0)
      have hgcd : Nat.gcd r (oldR % r) = Nat.gcd oldR r := by
        rw [Nat.gcd_comm r, ← Nat.gcd_rec, Nat.gcd_comm]
      have hnew : a * (oldS - ((oldR / r : Nat) : Int) * s) ≡ (oldR % r : Nat) [ZMOD m] := by
        have hdiv : ((oldR % r : Nat) : Int) = oldR - ((oldR / r : Nat) : Int) * r := by
          have h : ((oldR % r : Nat) : Int) + ((oldR / r : Nat) : Int) * r = oldR := mod_cast Nat.mod_add_div' oldR r
          linarith
        rw [hdiv, mul_sub, mul_left_comm]
        exact hOld.sub (hs.mul_left _)
      rw [euclidLoop, if_neg h0, hrem, ← hgcd]
      exact ih (by omega) hs hnew

theorem modInverse_lt (a : Nat) {m : Nat} (hm : 0 < m) : modInverse a m < m := by
  have := Int.emod_lt_of_pos (euclidLoop (m + 1) a m 1 0) (Int.natCast_pos.mpr hm)
  unfold modInverse
  omega

/-- What the pipeline of R116 answers, times `a`, is the gcd modulo `m`: for a coprime `a`, it is the inverse. -/
theorem mul_modInverse_mod (a : Nat) {m : Nat} (hm : 0 < m) : a * modInverse a m % m = Nat.gcd a m % m := by
  have hloop : a * euclidLoop (m + 1) a m 1 0 ≡ Nat.gcd a m [ZMOD m] :=
    euclidLoop_modEq a m (Nat.lt_succ_self m) (by simp) (by simp [Int.modEq_iff_dvd])
  have hval : (modInverse a m : Int) = euclidLoop (m + 1) a m 1 0 % m :=
    Int.toNat_of_nonneg (Int.emod_nonneg _ (by omega))
  have hcast : (a * modInverse a m : Nat) ≡ (Nat.gcd a m : Nat) [ZMOD m] := by
    push_cast [hval]
    exact ((Int.mod_modEq _ _).mul_left _).trans hloop
  exact (Int.natCast_modEq_iff.mp hcast)

/-- The gcd of two numbers below a bound is below it, also where one of them is 0 (R120). -/
theorem gcd_lt {a b k : Nat} (ha : a < k) (hb : b < k) : Nat.gcd a b < k := by
  rcases Nat.eq_zero_or_pos a with rfl | h
  · simpa using hb
  · exact (Nat.gcd_le_left b h).trans_lt ha

end Sys2Proof.Machine

/-! # State family, part 2: what a command leaves unchanged

`Frame i s t` says what a step of the command `i` from `s` to `t` leaves as it was. It is kept by the operations the meanings
are made of, so that every command keeps it (`exec_frame`); the frame obligations and the one about the key bank read
it off. -/

namespace Sys2Proof.Machine

/-- What only hosts and reset write: the settings (R28, R31, R32), the sticky bits of STATUS (R29), the parameters, and
the model's own turns and answer. -/
structure SameSettings (s t : State) : Prop where
  ctrl : t.ctrl = s.ctrl
  mrRounds : t.mrRounds = s.mrRounds
  retryMax : t.retryMax = s.retryMax
  ovr : t.status.ovr = s.status.ovr
  werr : t.status.werr = s.status.werr
  fovr : t.status.fovr = s.status.fovr
  cfg : t.cfg = s.cfg
  turns : t.turns = s.turns
  resp : t.resp = s.resp

/-- The commands that draw from the random sources (R150, R156, R170). -/
def draws : Instr → Bool
  | .mrtest _ => true
  | .primegen _ _ => true
  | .keygen _ => true
  | _ => false

/-- What a step of the command `i` from `s` to `t` leaves as it was (R21, R24, R33, R34, R41, R45). -/
structure Frame (i : Instr) (s t : State) : Prop where
  settings : SameSettings s t
  regs : ∀ j : Fin 8, dest i ≠ some j → t.regs[j] = s.regs[j]
  key : (∀ imm, i ≠ .keygen imm) → t.key = s.key ∧ t.keyValid = s.keyValid ∧ t.restarts = s.restarts
  attempts : oneStep i = true → t.attempts = s.attempts
  rng : s.rng.After t.rng
  undrawn : draws i = false → t.rng = s.rng

/-! ### The operations keep the frame -/

theorem Frame.refl (i : Instr) (s : State) : Frame i s s where
  settings := ⟨rfl, rfl, rfl, rfl, rfl, rfl, rfl, rfl, rfl⟩
  regs _ _ := rfl
  key _ := ⟨rfl, rfl, rfl⟩
  attempts _ := rfl
  rng := .refl _
  undrawn _ := rfl

section
variable {i : Instr} {s t : State}

theorem Frame.finish (h : Frame i s t) (code : ErrCode) (res : Bool) (info : Word) :
    Frame i s (t.finish code res info) where
  settings := { h.settings with }
  regs := h.regs
  key := h.key
  attempts := h.attempts
  rng := h.rng
  undrawn := h.undrawn

theorem Frame.raise (h : Frame i s t) (e : CmdError) : Frame i s (t.raise e) := h.finish e.code false e.info

theorem Frame.setReg (h : Frame i s t) {r : Fin 8} (hr : dest i = some r) (v : Nat) : Frame i s (t.setReg r v) where
  settings := { h.settings with }
  regs j hj := by
    have hne : r ≠ j := fun e => hj (e ▸ hr)
    rw [State.setReg_get, if_neg hne, h.regs j hj]
  key := h.key
  attempts := h.attempts
  rng := h.rng
  undrawn := h.undrawn

/-- A completion with a value for the command's register, or with an error. -/
theorem Frame.complete_reg (h : Frame i s t) {r : Fin 8} (hr : dest i = some r) (x : Except CmdError Nat) :
    Frame i s (t.complete (x.map (.reg r))) := by
  rcases complete_reg_cases t x r with ⟨v, -, e⟩ | ⟨err, -, e⟩ <;> rw [e]
  · exact (h.setReg hr v).finish ..
  · exact h.raise err

/-- Draws, by a command that draws. -/
theorem Frame.drawn (h : Frame i s t) (hi : draws i = true) {g : Rng} (hg : t.rng.After g) :
    Frame i s { t with rng := g } where
  settings := { h.settings with }
  regs := h.regs
  key := h.key
  attempts := h.attempts
  rng := h.rng.trans hg
  undrawn h' := by rw [hi] at h'; cases h'

/-- The state an attempt leaves: other sources and ATTEMPTS (R157). -/
theorem attempt_next {len : Nat} {r : Except CmdError (Option Nat)} (h : attempt len s = (r, t)) :
    ∃ g a, s.rng.After g ∧ t = { s with rng := g, attempts := a } := by
  simpa [h] using attempt_state len s

/-- An attempt, which PRIMEGEN and KEYGEN make (R157). -/
theorem Frame.attempt (hi : draws i = true) (h1 : oneStep i = false) {len : Nat} {r : Except CmdError (Option Nat)}
    (h : attempt len s = (r, t)) : Frame i s t := by
  obtain ⟨g, a, hg, rfl⟩ := attempt_next h
  have f := (Frame.refl i s).drawn hi hg
  exact { f with settings := { f.settings with }, attempts := fun h' => by rw [h1] at h'; cases h' }

end

/-- What KEYGEN does with a found prime. -/
theorem Frame.keygenFound {imm : BitVec 16} {s t : State} (h : Frame (.keygen imm) s t) (c : Nat) :
    Frame (.keygen imm) s (keygenFound c t) := by
  have goesOn : ∀ (u : State) (m : Mic), Frame (.keygen imm) s u → Frame (.keygen imm) s (u.setMic m) := by
    intro u m hu
    cases he : u.eng with
    | idle => simpa [State.setMic, he] using hu
    | busy w lat mic => rw [State.setMic_of_eng he]; exact { hu with settings := { hu.settings with } }
  unfold Machine.keygenFound
  split
  · split
    · rw [State.complete_ok, State.commit_keyPair]
      apply Frame.finish
      exact { h with settings := { h.settings with }, key := fun hk => absurd rfl (hk imm) }
    · exact goesOn _ _ { h with settings := { h.settings with }, key := fun hk => absurd rfl (hk imm) }
  · exact goesOn _ _ h

/-! ### Every command keeps it -/

theorem execMrtest_frame {ra : RegField} {s t : State} (h : execMrtest ra s = .next t) : Frame (.mrtest ra) s t := by
  have drawn : ∀ r g, millerRabin s.lat.src (s.operand ra) s.lat.k.toNat s.rng = (r, g) →
      Frame (.mrtest ra) s { s with rng := g } := fun r g hm =>
    (Frame.refl _ s).drawn rfl (by simpa [hm] using millerRabin_after s.lat.src (s.operand ra) s.lat.k.toNat s.rng)
  rcases execMrtest_cases ra s with ⟨b, g, hm, e⟩ | ⟨err, g, hm, e⟩ <;> (rw [e] at h; cases h)
  · exact (drawn _ g hm).finish ..
  · exact (drawn _ g hm).raise err

theorem execPrimegen_frame {rd : RegField} {imm : BitVec 16} {s t : State} (h : execPrimegen rd imm s = .next t) :
    Frame (.primegen rd imm) s t := by
  rcases execPrimegen_cases rd imm s with ⟨-, e⟩ | ⟨-, -, ⟨err, s', ha, e⟩ | ⟨s', ha, e⟩ | ⟨c, s', ha, e⟩⟩ <;>
    (rw [e] at h; cases h)
  · exact (Frame.refl _ s).raise _
  · exact (Frame.attempt rfl rfl ha).raise err
  · exact Frame.attempt rfl rfl ha
  · exact ((Frame.attempt rfl rfl ha).setReg rfl c).finish ..

theorem execKeygen_frame {imm : BitVec 16} {s t : State} (h : execKeygen imm s = .next t) :
    Frame (.keygen imm) s t := by
  rcases execKeygen_cases imm s with ⟨-, e⟩ | ⟨-, -, ⟨err, s', ha, e⟩ | ⟨s', ha, e⟩ | ⟨c, s', ha, e⟩⟩ <;>
    (rw [e] at h; cases h)
  · exact (Frame.refl _ s).raise _
  · exact (Frame.attempt rfl rfl ha).raise err
  · exact Frame.attempt rfl rfl ha
  · exact (Frame.attempt rfl rfl ha).keygenFound c

theorem exec_frame {i : Instr} {s t : State} (h : exec i s = .next t) : Frame i s t := by
  cases i with
  | nop => cases h; exact (Frame.refl _ s).finish ..
  | modexp rd ra rb rc => cases h; exact (Frame.refl _ s).complete_reg rfl _
  | modinv rd ra rb => cases h; exact (Frame.refl _ s).complete_reg rfl _
  | gcd rd ra rb => cases h; exact (Frame.refl _ s).complete_reg rfl (.ok _)
  | mrtest ra => exact execMrtest_frame h
  | primegen rd imm => exact execPrimegen_frame h
  | keygen imm => exact execKeygen_frame h
  | encrypt rd ra => cases h; exact (Frame.refl _ s).complete_reg rfl _
  | decrypt rd ra => cases h; exact (Frame.refl _ s).complete_reg rfl _

/-! ### Where the map has a register, and what reads the same under a frame -/

/-- The offsets at which a slot of the map lies (R64). -/
def Slot.At : Slot → Nat → Prop
  | .id, off => off = 0x000
  | .ctrl, off => off = 0x004
  | .status, off => off = 0x008
  | .cmd, off => off = 0x00C
  | .mrRounds, off => off = 0x010
  | .retryMax, off => off = 0x014
  | .attempts, off => off = 0x018
  | .restarts, off => off = 0x01C
  | .errinfo, off => off = 0x020
  | .rngData, off => off = 0x024
  | .rngLevel, off => off = 0x028
  | .big i _, off => 0x1000 + 0x200 * i.val ≤ off ∧ off < 0x1000 + 0x200 * i.val + 0x200
  | .key _ _, off => 0x2000 ≤ off ∧ off < 0x2C00

theorem keyRegAt_lt {k : Nat} {r : KeyReg} (h : keyRegAt k = some r) : k < 6 := by
  obtain ⟨hl, -⟩ := List.getElem?_eq_some_iff.mp h
  exact hl

/-- An access reaches a slot only where the slot lies. -/
theorem busSlot_at {c : Params} {off width : Nat} {sl : Slot} (h : busSlot c off width = .ok sl) : sl.At off := by
  obtain ⟨-, ha, hs⟩ := busSlot_ok_iff.mp h
  rcases Nat.lt_or_ge off 0x1000 with hlow | hhigh
  · rw [slotAt_ctrl c hlow] at hs
    have hmem := ctrlSlotAt_cases hs
    simp only [List.mem_cons, Prod.mk.injEq, List.not_mem_nil, or_false] at hmem
    rcases hmem with ⟨hw, rfl⟩ | ⟨hw, rfl⟩ | ⟨hw, rfl⟩ | ⟨hw, rfl⟩ | ⟨hw, rfl⟩ | ⟨hw, rfl⟩ | ⟨hw, rfl⟩ | ⟨hw, rfl⟩ |
      ⟨hw, rfl⟩ | ⟨hw, rfl⟩ | ⟨hw, rfl⟩ <;> simp only [Slot.At] <;> omega
  · simp only [slotAt, if_neg (Nat.not_lt.mpr hhigh)] at hs
    split at hs
    · split at hs
      · cases hs
        simp only [Slot.At]
        omega
      · cases hs
    · split at hs
      · obtain ⟨r, hr, rfl⟩ := Option.map_eq_some_iff.mp hs
        have := keyRegAt_lt hr
        simp only [Slot.At]
        omega
      · cases hs

/-- A word of the window reads as before where what it shows is as before. -/
theorem busRead_eq {s t : State} {off width : Nat} (h : SameSettings s t) (hstatus : off ≠ 0x008)
    (hattempts : t.attempts = s.attempts ∨ off ≠ 0x018) (hrestarts : t.restarts = s.restarts ∨ off ≠ 0x01C)
    (herrinfo : off ≠ 0x020) (hlevel : t.rng = s.rng ∨ off ≠ 0x028)
    (hbig : ∀ j : Fin 8, t.regs[j] = s.regs[j] ∨
      ¬ (0x1000 + 0x200 * j.val ≤ off ∧ off < 0x1000 + 0x200 * j.val + 0x200))
    (hkey : t.key = s.key ∨ ¬ (0x2000 ≤ off ∧ off < 0x2C00)) :
    busRead t off width = busRead s off width := by
  have hslot : ∀ sl, Slot.At sl off → t.readSlot sl = s.readSlot sl := by
    intro sl hat
    cases sl with
    | id => simp only [State.readSlot, State.idWord, h.cfg]
    | ctrl => simp only [State.readSlot, State.ctrlWord, h.ctrl]
    | status => exact absurd hat hstatus
    | cmd => rfl
    | mrRounds => simp only [State.readSlot, State.mrRoundsWord, h.mrRounds]
    | retryMax => exact h.retryMax
    | attempts => exact hattempts.resolve_right (not_not_intro hat)
    | restarts => exact hrestarts.resolve_right (not_not_intro hat)
    | errinfo => exact absurd hat herrinfo
    | rngData => rfl
    | rngLevel => simp only [State.readSlot, State.rngLevelWord, hlevel.resolve_right (not_not_intro hat)]
    | big j k => simp only [State.readSlot, (hbig j).resolve_right (not_not_intro hat)]
    | key k j => simp only [State.readSlot, hkey.resolve_right (not_not_intro hat)]
  unfold busRead
  rw [h.cfg]
  cases hs : busSlot s.cfg off width with
  | error f => rfl
  | ok sl => simp only [Except.map, hslot sl (busSlot_at hs)]

/-- Settles O55: every command keeps `Frame`, and the five register commands draw nothing. -/
theorem frameOfTheRegisterCommands : Obligations.FrameOfTheRegisterCommands := by
  intro s t i rd hi hd h
  have f := exec_frame h
  have hregs : ∀ j : Fin 8, j ≠ rd → t.regs[j] = s.regs[j] := fun j hj =>
    f.regs j (by rw [hd]; exact fun e => hj (Option.some.inj e).symm)
  have kind : (∀ imm, i ≠ .keygen imm) ∧ oneStep i = true ∧ draws i = false := by
    cases i <;> simp_all [oneStep, draws]
  obtain ⟨hkeygen, honeStep, hdraws⟩ := kind
  obtain ⟨hkey, hvalid, hrestarts⟩ := f.key hkeygen
  have hattempts := f.attempts honeStep
  have hrng := f.undrawn hdraws
  have fs := f.settings
  refine ⟨hregs, hkey, hvalid, fs.ctrl, fs.mrRounds, fs.retryMax, hattempts, hrestarts, hrng, fs.ovr, fs.werr, fs.fovr,
    fs.cfg, fs.turns, fs.resp, fun off width hstatus herrinfo hrd => ?_⟩
  refine busRead_eq fs hstatus (.inl hattempts) (.inl hrestarts) herrinfo (.inl hrng) (fun j => ?_) (.inl hkey)
  by_cases hj : j = rd
  · exact .inr (hj ▸ hrd)
  · exact .inl (hregs j hj)

/-- Settles O56: every command keeps `Frame`. -/
theorem frameOfTheDrawingCommands : Obligations.FrameOfTheDrawingCommands := by
  intro s t i hi h
  have f := exec_frame h
  have fs := f.settings
  have hattempts : (∃ ra, i = .mrtest ra) → t.attempts = s.attempts := by
    rintro ⟨ra, rfl⟩
    exact f.attempts rfl
  refine ⟨f.regs, f.key, hattempts, fs.ctrl, fs.mrRounds, fs.retryMax, fs.ovr, fs.werr, fs.fovr, fs.cfg, fs.turns,
    fs.resp, f.rng, fun off width hstatus herrinfo hlevel hat hkeygen hrd => ?_⟩
  refine busRead_eq fs hstatus (hat.imp_left hattempts) ?_ herrinfo (.inr hlevel) (fun j => ?_) ?_
  · exact hkeygen.imp (fun hk => (f.key hk).2.2) And.left
  · by_cases hj : dest i = some j
    · exact .inr (hrd j hj)
    · exact .inl (f.regs j hj)
  · exact hkeygen.imp (fun hk => (f.key hk).1) And.right

end Sys2Proof.Machine

/-! # State family, part 3: the key bank

What an attempt and a found prime lead to (R157, R171, R174), and who writes the key bank. -/

namespace Sys2Proof.Machine

/-! ### The key pair of two tested primes (R26, R171) -/

/-- A candidate found is of the length asked for, odd and at least 5 (R142, R151, R157). -/
theorem attempt_found {len c : Nat} {s s' : State} (h : attempt len s = (.ok (some c), s')) :
    c < 256 ^ len ∧ c % 2 = 1 ∧ 5 ≤ c := by
  rcases attempt_cases len s with ⟨-, -, e⟩ | ⟨-, ⟨-, -, e⟩ | ⟨c', g, hd, ⟨g', hm, e⟩ | ⟨g', hm, e⟩ | ⟨_, g', hm, e⟩⟩⟩ <;>
    (rw [e] at h; cases h)
  exact ⟨drawBytes_lt hd, millerRabin_true hm⟩

theorem totient_ge {p q : Nat} (hp : 5 ≤ p) (hq : 5 ≤ q) : 16 ≤ (p - 1) * (q - 1) :=
  Nat.mul_le_mul (show 4 ≤ p - 1 by omega) (show 4 ≤ q - 1 by omega)

theorem keyPair_p {p q : Nat} {k : KeyBank} (h : keyPair p q = some k) : k.p = p := by
  rcases keyPair_cases p q with ⟨-, e⟩ | ⟨-, -, e⟩ <;> (rw [e] at h; cases h)
  rfl

/-- The key pair of two tested primes meets the invariants of R26. -/
theorem keyPair_valid {p q : Nat} {k : KeyBank} (h : keyPair p q = some k) (hp : p % 2 = 1 ∧ 5 ≤ p)
    (hq : q % 2 = 1 ∧ 5 ≤ q) : k.Valid := by
  rcases keyPair_cases p q with ⟨-, e⟩ | ⟨hgcd, hne, e⟩ <;> (rw [e] at h; cases h)
  have hphi := totient_ge hp.2 hq.2
  have hinv : eFixed * modInverse eFixed ((p - 1) * (q - 1)) % ((p - 1) * (q - 1)) = 1 := by
    rw [mul_modInverse_mod eFixed (by omega), hgcd, Nat.mod_eq_of_lt (by omega)]
  have hd : modInverse eFixed ((p - 1) * (q - 1)) ≠ 0 := by
    intro h0
    simp [h0] at hinv
  exact ⟨hne, hp, hq, rfl, rfl, rfl, hgcd, ⟨Nat.pos_of_ne_zero hd, modInverse_lt _ (by omega)⟩, hinv⟩

/-- The key pair of two tested primes of half the width fits the width (R172). -/
theorem keyPair_fits {p q w len : Nat} {k : KeyBank} (h : keyPair p q = some k) (hp : p < 256 ^ len) (hp5 : 5 ≤ p)
    (hq : q < 256 ^ len) (hq5 : 5 ≤ q) (hlen : 16 * len ≤ w) (hw : 64 ≤ w) : k.Fits w := by
  rcases keyPair_cases p q with ⟨-, e⟩ | ⟨-, -, e⟩ <;> (rw [e] at h; cases h)
  have hsquare : 256 ^ len * 256 ^ len ≤ 2 ^ w := by
    calc 256 ^ len * 256 ^ len = 2 ^ (16 * len) := by rw [← Nat.mul_pow, Nat.pow_mul]
      _ ≤ 2 ^ w := Nat.pow_le_pow_right (by decide) hlen
  have hn : p * q < 2 ^ w := (Nat.mul_lt_mul'' hp hq).trans_le hsquare
  have hphi : (p - 1) * (q - 1) ≤ p * q := Nat.mul_le_mul (Nat.sub_le ..) (Nat.sub_le ..)
  have hd := modInverse_lt eFixed (m := (p - 1) * (q - 1)) (by have := totient_ge hp5 hq5; omega)
  have he : eFixed < 2 ^ w := (by decide : eFixed < 2 ^ 64).trans_le (Nat.pow_le_pow_right (by decide) hw)
  exact ⟨(Nat.le_mul_of_pos_right p (by omega)).trans_lt hn, (Nat.le_mul_of_pos_left q (by omega)).trans_lt hn, hn,
    hphi.trans_lt hn, he, hd.trans (hphi.trans_lt hn)⟩

/-! ### Who writes the key bank (R24, R25) -/

/-- A step of a running KEYGEN leaves the key bank, or is the commit of phase `GenQ`. -/
theorem execKeygen_key {imm : BitVec 16} {s t : State} {w : Word} {lat : Latch} {mic : Mic}
    (he : s.eng = .busy w lat mic) (h : execKeygen imm s = .next t) :
    (t.key = s.key ∧ t.keyValid = s.keyValid) ∨
    ∃ p, mic = .genQ p ∧ t.key.p = p ∧ t.eng = .idle ∧ t.status.err = .ok ∧ t.keyValid = true := by
  rcases execKeygen_cases imm s with ⟨-, e⟩ | ⟨-, -, ⟨err, s', ha, e⟩ | ⟨s', ha, e⟩ | ⟨c, s', ha, e⟩⟩ <;>
    (rw [e] at h; cases h)
  · exact .inl ⟨rfl, rfl⟩
  · obtain ⟨g, a, -, rfl⟩ := attempt_next ha
    exact .inl ⟨rfl, rfl⟩
  · obtain ⟨g, a, -, rfl⟩ := attempt_next ha
    exact .inl ⟨rfl, rfl⟩
  · obtain ⟨g, a, -, rfl⟩ := attempt_next ha
    rcases keygenFound_cases c (s := { s with rng := g, attempts := a }) he with
      ⟨-, e⟩ | ⟨p, k, hp, hk, e⟩ | ⟨p, -, -, e⟩ <;> rw [e]
    · exact .inl ⟨rfl, rfl⟩
    · exact .inr ⟨p, hp, keyPair_p hk, rfl, rfl, rfl⟩
    · exact .inl ⟨rfl, rfl⟩

/-- An engine step leaves the key bank, or is the commit of a KEYGEN in phase `GenQ`. -/
theorem engineStep_key {s t : State} (h : engineStep s = .next t) :
    (t.key = s.key ∧ t.keyValid = s.keyValid) ∨
    ((∃ c lat p imm, s.eng = .busy c lat (.genQ p) ∧ decode c = .ok (.keygen imm) ∧ t.key.p = p) ∧
      t.eng = .idle ∧ t.status.err = .ok ∧ t.keyValid = true) := by
  rcases engineStep_cases s with ⟨-, e⟩ | ⟨c, lat, mic, i, he, hd, e⟩ | ⟨_, _, _, _, -, -, e⟩ <;> rw [e] at h
  · cases h
    exact .inl ⟨rfl, rfl⟩
  · by_cases hi : ∃ imm, i = .keygen imm
    · obtain ⟨imm, rfl⟩ := hi
      refine (execKeygen_key he h).imp_right ?_
      rintro ⟨p, rfl, hp, hidle, herr, hvalid⟩
      exact ⟨⟨c, lat, p, imm, he, hd, hp⟩, hidle, herr, hvalid⟩
    · obtain ⟨hkey, hvalid, -⟩ := (exec_frame h).key fun imm e => hi ⟨imm, e⟩
      exact .inl ⟨hkey, hvalid⟩
  · cases h
    exact .inl ⟨rfl, rfl⟩

/-- No access of a host reaches the key bank or KEYVALID. -/
theorem access_key (s : State) (off : Nat) (a : Access) :
    (s.access off a).key = s.key ∧ (s.access off a).keyValid = s.keyValid := by
  obtain ⟨r, e | ⟨sl, v, -, -, -, e⟩⟩ := access_cases s off a <;> rw [e]
  · exact ⟨rfl, rfl⟩
  · obtain ⟨hkey, hvalid, -⟩ := writeSlot_keeps s v sl
    exact ⟨hkey, hvalid⟩

/-- Settles O50: an engine step that writes the key bank is KEYGEN's commit, and a host's access writes neither. -/
theorem onlyKeygenAndResetWriteTheKey : Obligations.OnlyKeygenAndResetWriteTheKey := by
  intro s t h hne
  have changed : ¬ (t.key = s.key ∧ t.keyValid = s.keyValid) := fun ⟨hk, hv⟩ => hne.elim (· hk) (· hv)
  rcases step_cases s with ⟨ht, e⟩ | ⟨rest, ht, e⟩ | ⟨a, rest, -, e⟩ | ⟨rest, ht, -⟩
  · exact .inr ⟨.inl ht, (engineStep_key (e.symm.trans h)).resolve_left changed⟩
  · exact .inr ⟨.inr ⟨rest, ht⟩, (engineStep_key (e.symm.trans h)).resolve_left changed⟩
  · rw [e] at h
    rcases hostStep_cases a { s with turns := rest } with ⟨off, -, -, e'⟩ | ⟨-, e'⟩ <;> (rw [e'] at h; cases h)
    exact absurd (access_key ..) changed
  · exact .inl ⟨rest, ht⟩

end Sys2Proof.Machine

/-! # State family, part 4: the invariant

Every operation the steps are made of keeps `State.Inv`, so every step does. -/

namespace Sys2Proof.Machine

/-! ### Reset and the shared operations -/

theorem Params.opw_ge {c : Params} (h : c.wf = true) : 64 ≤ c.opw := by
  simp only [Params.wf, Bool.and_eq_true, decide_eq_true_eq] at h
  omega

/-- The microstate at accept fits the word (R211). -/
theorem mic0_legal (c : Params) (w : Word) (lat : Latch) : (Eng.busy w lat (mic0 w)).Legal c := by
  unfold mic0
  cases h : isKeygen w <;> simpa [Eng.Legal] using h

theorem isKeygen_of_decode {w : Word} {imm : BitVec 16} (h : decode w = .ok (.keygen imm)) : isKeygen w = true := by
  simp [isKeygen, h]

/-- The state after reset meets the invariant, whatever the parameters (R44). -/
theorem resetWith_inv {c : Params} (h : c.wf = true) : (State.resetWith c).Inv where
  cfg := h
  regs i := by simp [State.resetWith]
  key := by constructor <;> exact Nat.two_pow_pos _
  queue := Nat.zero_le _
  pair h' := by cases h'
  eng := trivial

section
variable {s t : State}

/-- The invariant speaks of the parameters, the big registers, the key pair, the length of `RNGQ` and the engine. -/
theorem State.Inv.congr (h : s.Inv) (hcfg : t.cfg = s.cfg) (hregs : t.regs = s.regs) (hkey : t.key = s.key)
    (hvalid : t.keyValid = s.keyValid) (hqueue : t.rng.queue.length ≤ s.cfg.fifoBytes) (heng : t.eng.Legal s.cfg) :
    t.Inv where
  cfg := hcfg ▸ h.cfg
  regs := by rw [hcfg, hregs]; exact h.regs
  key := by rw [hcfg, hkey]; exact h.key
  queue := by rw [hcfg]; exact hqueue
  pair := by rw [hkey, hvalid]; exact h.pair
  eng := by rw [hcfg]; exact heng

/-- The turns to come and the last answer are no part of it. -/
theorem State.Inv.withTurnsResp (h : s.Inv) (r : List Turn) (p : Option BusResp) :
    State.Inv { s with turns := r, resp := p } := h.congr rfl rfl rfl rfl h.queue h.eng

theorem State.Inv.finish (h : s.Inv) (code : ErrCode) (res : Bool) (info : Word) : (s.finish code res info).Inv :=
  h.congr rfl rfl rfl rfl h.queue trivial

theorem State.Inv.raise (h : s.Inv) (e : CmdError) : (s.raise e).Inv := h.finish ..

theorem State.Inv.setReg (h : s.Inv) (i : Fin 8) {v : Nat} (hv : v < 2 ^ s.cfg.opw) : (s.setReg i v).Inv where
  cfg := h.cfg
  regs j := by
    rw [State.setReg_get]
    split
    · exact hv
    · exact h.regs j
  key := h.key
  queue := h.queue
  pair := h.pair
  eng := h.eng

theorem State.Inv.drawn (h : s.Inv) {g : Rng} (hg : s.rng.After g) (a : Word) :
    State.Inv { s with rng := g, attempts := a } :=
  h.congr rfl rfl rfl rfl (hg.length_le.trans h.queue) h.eng

/-- The commit of a key pair and its completion (R174). -/
theorem State.Inv.commitKeyPair (h : s.Inv) {k : KeyBank} (hfits : k.Fits s.cfg.opw) (hvalid : k.Valid) :
    (({ s with key := k, keyValid := true } : State).finish .ok false 0).Inv where
  cfg := h.cfg
  regs := h.regs
  key := hfits
  queue := h.queue
  pair _ := hvalid
  eng := trivial

/-- Reset gives the parameters' reset state, but for fields the invariant does not speak of (R270). -/
theorem State.Inv.rst (h : s.Inv) : s.rst.Inv :=
  (resetWith_inv h.cfg).congr rfl rfl rfl rfl (Nat.zero_le _) trivial

/-! ### A host's writes keep it -/

theorem State.Inv.accept (h : s.Inv) (c : Word) : (s.accept c).Inv :=
  h.congr rfl rfl rfl rfl h.queue (mic0_legal ..)

theorem State.Inv.writeCtrl (h : s.Inv) (v : Word) : (s.writeCtrl v).Inv := by
  unfold State.writeCtrl
  dsimp only
  split
  · split
    · exact h.congr rfl rfl rfl rfl h.queue h.eng
    · exact h.congr rfl rfl rfl rfl (Nat.zero_le _) h.eng
  · exact h.congr rfl rfl rfl rfl h.queue h.eng

theorem State.Inv.writeCmd (h : s.Inv) (c : Word) : (s.writeCmd c).Inv := by
  unfold State.writeCmd
  split
  · exact h.congr rfl rfl rfl rfl h.queue h.eng
  · exact h.accept c

theorem State.Inv.writeRngData (h : s.Inv) (v : Word) : (s.writeRngData v).Inv := by
  unfold State.writeRngData
  split
  · exact h.congr rfl rfl rfl rfl h.queue h.eng
  · split
    · next hroom => exact h.congr rfl rfl rfl rfl (by simpa using hroom) h.eng
    · exact h.congr rfl rfl rfl rfl h.queue h.eng

theorem State.Inv.writeBig (h : s.Inv) (i : Fin 8) {j : Nat} (hj : j < s.cfg.words) (v : Word) :
    (s.writeBig i j v).Inv := by
  unfold State.writeBig
  split
  · exact h.congr rfl rfl rfl rfl h.queue h.eng
  · have hopw := Params.opw_eq h.cfg
    exact h.setReg i (putWord_lt v (h.regs i) (by omega))

theorem State.Inv.writeSlot (h : s.Inv) (v : Word) (sl : Slot) (hj : ∀ i j, sl = .big i j → j < s.cfg.words) :
    (s.writeSlot v sl).Inv := by
  cases sl with
  | ctrl => exact h.writeCtrl v
  | cmd => exact h.writeCmd v
  | rngData => exact h.writeRngData v
  | big i j => exact h.writeBig i (hj i j rfl) v
  | status | mrRounds | retryMax => exact h.congr rfl rfl rfl rfl h.queue h.eng
  | _ => exact h

theorem State.Inv.access (h : s.Inv) (off : Nat) (a : Access) : (s.access off a).Inv := by
  obtain ⟨r, e | ⟨sl, v, -, ha, hs, e⟩⟩ := access_cases s off a <;> rw [e]
  · exact h.withTurnsResp ..
  · have hj : ∀ i j, sl = .big i j → j < s.cfg.words := by
      rintro i j rfl
      exact (slotAt_eq_big ha hs).2
    exact (h.writeSlot v sl hj).withTurnsResp ..

/-! ### The commands keep it -/

theorem State.Inv.operand_lt (h : s.Inv) (r : RegField) : s.operand r < 2 ^ s.cfg.opw := h.regs _

/-- A completion with a register value of the width, or with an error. -/
theorem State.Inv.complete_reg (h : s.Inv) {x : Except CmdError Nat} (hx : ∀ v, x = .ok v → v < 2 ^ s.cfg.opw)
    (i : Fin 8) : (s.complete (x.map (.reg i))).Inv := by
  rcases complete_reg_cases s x i with ⟨v, hv, e⟩ | ⟨err, -, e⟩ <;> rw [e]
  · exact (h.setReg i (hx v hv)).finish ..
  · exact h.raise err

theorem modexpValue_lt {a b m v : Nat} (h : modexpValue a b m = .ok v) : v < m := by
  rcases modexpValue_cases a b m with ⟨-, e⟩ | ⟨hm, e⟩ <;> (rw [e] at h; cases h)
  exact modExp_lt a b (Nat.pos_of_ne_zero hm)

theorem modinvValue_lt {a m v : Nat} (h : modinvValue a m = .ok v) : v < m := by
  rcases modinvValue_cases a m with ⟨-, e⟩ | ⟨-, -, e⟩ | ⟨hm, -, e⟩ <;> (rw [e] at h; cases h)
  exact modInverse_lt a (Nat.pos_of_ne_zero hm)

/-- The modulus of a valid key pair is not 0. -/
theorem KeyBank.Valid.n_pos {k : KeyBank} (h : k.Valid) : 0 < k.n := by
  rw [h.modulus]
  exact Nat.mul_pos (by have := h.p_tested; omega) (by have := h.q_tested; omega)

theorem State.Inv.transformValue_lt (h : s.Inv) {x e v : Nat} (hv : transformValue s x e = .ok v) :
    v < 2 ^ s.cfg.opw := by
  rcases transformValue_cases s x e with ⟨-, e'⟩ | ⟨-, -, -, e'⟩ | ⟨hk, -, e'⟩ <;> (rw [e'] at hv; cases hv)
  exact (modExp_lt x e (h.pair hk).n_pos).trans h.key.n

/-- A test of MRTEST draws, and commits no register. -/
theorem State.Inv.execMrtest (h : s.Inv) {ra : RegField} (he : execMrtest ra s = .next t) : t.Inv := by
  have drawn : ∀ r g, millerRabin s.lat.src (s.operand ra) s.lat.k.toNat s.rng = (r, g) →
      State.Inv { s with rng := g } := fun r g hm =>
    h.drawn (by simpa [hm] using millerRabin_after s.lat.src (s.operand ra) s.lat.k.toNat s.rng) s.attempts
  rcases execMrtest_cases ra s with ⟨b, g, hm, e⟩ | ⟨err, g, hm, e⟩ <;> (rw [e] at he; cases he)
  · exact (drawn _ g hm).finish ..
  · exact (drawn _ g hm).raise err

theorem State.Inv.attempt (h : s.Inv) {len : Nat} {r : Except CmdError (Option Nat)} (ha : attempt len s = (r, t)) :
    t.Inv := by
  obtain ⟨g, a, hg, rfl⟩ := attempt_next ha
  exact h.drawn hg a

/-- PRIMEGEN's candidate has `imm` bytes, which fit the width (R156). -/
theorem State.Inv.execPrimegen (h : s.Inv) {rd : RegField} {imm : BitVec 16} (he : execPrimegen rd imm s = .next t) :
    t.Inv := by
  rcases execPrimegen_cases rd imm s with ⟨-, e⟩ | ⟨-, hlen, ⟨err, s', ha, e⟩ | ⟨s', ha, e⟩ | ⟨c, s', ha, e⟩⟩ <;>
    (rw [e] at he; cases he)
  · exact h.raise _
  · exact (h.attempt ha).raise err
  · exact h.attempt ha
  · have hc : c < 2 ^ s.cfg.opw := by
      calc c < 256 ^ immValue imm := (attempt_found ha).1
        _ = 2 ^ (8 * immValue imm) := by rw [Nat.pow_mul]
        _ ≤ 2 ^ s.cfg.opw := Nat.pow_le_pow_right (by decide) hlen
    have hcfg : s'.cfg = s.cfg := (Frame.attempt (i := .primegen rd imm) rfl rfl ha).settings.cfg
    exact ((h.attempt ha).setReg _ (hcfg ▸ hc)).finish ..

/-- KEYGEN's found prime is kept in phase `GenP`, makes a legal key pair in phase `GenQ`, or sends it back (R171, R173). -/
theorem State.Inv.keygenFound (h : s.Inv) {w : Word} {lat : Latch} {mic : Mic} {imm : BitVec 16} {c : Nat}
    (he : s.eng = .busy w lat mic) (hd : decode w = .ok (.keygen imm)) (hlen : primeLen imm ≠ 0)
    (hwidth : 16 * primeLen imm ≤ s.cfg.opw) (hc : c < 256 ^ primeLen imm ∧ c % 2 = 1 ∧ 5 ≤ c) :
    (keygenFound c s).Inv := by
  rcases keygenFound_cases c he with ⟨-, e⟩ | ⟨p, k, rfl, hk, e⟩ | ⟨p, -, -, e⟩ <;> rw [e]
  · exact h.congr rfl rfl rfl rfl h.queue ⟨imm, hd, hlen, hwidth, hc⟩
  · have hlegal := h.eng
    rw [he] at hlegal
    obtain ⟨imm', hd', -, -, hp, hodd, hp5⟩ := hlegal
    obtain rfl : imm = imm' := by
      rw [hd] at hd'
      cases hd'
      rfl
    obtain ⟨hc, hcodd, hc5⟩ := hc
    exact h.commitKeyPair (keyPair_fits hk hp hp5 hc hc5 hwidth (Params.opw_ge h.cfg))
      (keyPair_valid hk ⟨hodd, hp5⟩ ⟨hcodd, hc5⟩)
  · exact h.congr rfl rfl rfl rfl h.queue (isKeygen_of_decode hd)

theorem State.Inv.execKeygen (h : s.Inv) {w : Word} {lat : Latch} {mic : Mic} {imm : BitVec 16}
    (heng : s.eng = .busy w lat mic) (hd : decode w = .ok (.keygen imm)) (he : execKeygen imm s = .next t) : t.Inv := by
  rcases execKeygen_cases imm s with ⟨-, e⟩ | ⟨hlen, hwidth, ⟨err, s', ha, e⟩ | ⟨s', ha, e⟩ | ⟨c, s', ha, e⟩⟩ <;>
    (rw [e] at he; cases he)
  · exact h.raise _
  · exact (h.attempt ha).raise err
  · exact h.attempt ha
  · have hfound := attempt_found ha
    obtain ⟨g, a, hg, rfl⟩ := attempt_next ha
    exact (h.drawn hg a).keygenFound heng hd hlen hwidth hfound

/-- A step of the running command keeps the invariant. -/
theorem State.Inv.exec (h : s.Inv) {w : Word} {lat : Latch} {mic : Mic} {i : Instr} (heng : s.eng = .busy w lat mic)
    (hd : decode w = .ok i) (he : exec i s = .next t) : t.Inv := by
  cases i with
  | nop => cases he; exact h.finish ..
  | modexp rd ra rb rc => cases he; exact h.complete_reg (fun v hv => (modexpValue_lt hv).trans (h.operand_lt rc)) _
  | modinv rd ra rb => cases he; exact h.complete_reg (fun v hv => (modinvValue_lt hv).trans (h.operand_lt rb)) _
  | gcd rd ra rb => cases he; exact (h.setReg _ (gcd_lt (h.operand_lt ra) (h.operand_lt rb))).finish ..
  | mrtest ra => exact h.execMrtest he
  | primegen rd imm => exact h.execPrimegen he
  | keygen imm => exact h.execKeygen heng hd he
  | encrypt rd ra => cases he; exact h.complete_reg (fun v hv => h.transformValue_lt hv) _
  | decrypt rd ra => cases he; exact h.complete_reg (fun v hv => h.transformValue_lt hv) _

theorem State.Inv.engineStep (h : s.Inv) (he : engineStep s = .next t) : t.Inv := by
  rcases engineStep_cases s with ⟨-, e⟩ | ⟨c, lat, mic, i, heng, hd, e⟩ | ⟨c, _, _, _, -, -, e⟩ <;> rw [e] at he
  · cases he
    exact h
  · exact h.exec heng hd he
  · cases he
    exact h.raise _

end

/-- Settles O57: the engine's step, a host's access and reset each keep the invariant. -/
theorem everyStepKeepsTheInvariant : Obligations.EveryStepKeepsTheInvariant := by
  intro s t h he
  have hrest := fun rest => h.withTurnsResp rest s.resp
  rcases step_cases s with ⟨-, e⟩ | ⟨rest, -, e⟩ | ⟨a, rest, -, e⟩ | ⟨rest, -, e⟩ <;> rw [e] at he
  · exact h.engineStep he
  · exact (hrest rest).engineStep he
  · rcases hostStep_cases a { s with turns := rest } with ⟨off, -, -, e'⟩ | ⟨-, e'⟩ <;> (rw [e'] at he; cases he)
    exact (hrest rest).access off a
  · cases he
    exact (hrest rest).rst

/-- Settles O58: an idle engine is under no ceiling. -/
theorem resetMeetsTheInvariant : Obligations.ResetMeetsTheInvariant := by
  intro c h
  refine ⟨resetWith_inv h, fun w lat mic he => ?_⟩
  cases he

end Sys2Proof.Machine

/-! # State family, part 5: the latch

While a command runs, its step commutes with a change of the live registers (R39). -/

namespace Sys2Proof.Machine

/-- `s` with other values of the live registers an accept copies (R39) and of the rest of `CTRL`. -/
def State.withLive (s : State) (k : BitVec 16) (r : Word) (ct : Ctrl) : State :=
  { s with mrRounds := k, retryMax := r, ctrl := ct }

section
variable (s : State) (k : BitVec 16) (r : Word) (ct : Ctrl)

theorem State.withLive_lat (h : s.eng ≠ .idle) : (s.withLive k r ct).lat = s.lat := by
  cases he : s.eng with
  | idle => exact absurd he h
  | busy c lat mic => rw [State.lat_of_eng he, State.lat_of_eng (s := s.withLive k r ct) he]

theorem State.complete_withLive (x : Except CmdError Commit) :
    (s.withLive k r ct).complete x = (s.complete x).withLive k r ct := by
  rcases x with e | c
  · rfl
  · cases c <;> rfl

theorem State.setMic_withLive (m : Mic) : (s.withLive k r ct).setMic m = (s.setMic m).withLive k r ct := by
  cases he : s.eng with
  | idle => simp [State.setMic, State.withLive, he]
  | busy c lat mic => rw [State.setMic_of_eng he, State.setMic_of_eng (s := s.withLive k r ct) he]; rfl

theorem keygenFound_withLive (c : Nat) :
    keygenFound c (s.withLive k r ct) = (keygenFound c s).withLive k r ct := by
  have hmic : (s.withLive k r ct).mic = s.mic := rfl
  unfold keygenFound
  rw [hmic]
  split
  · split
    · exact State.complete_withLive ..
    · exact State.setMic_withLive { s with restarts := satInc s.restarts } k r ct .genP
  · exact State.setMic_withLive ..

/-- An attempt reads the ceiling, the round count and the source from the latch. -/
theorem attempt_withLive (h : s.eng ≠ .idle) (len : Nat) :
    attempt len (s.withLive k r ct) = ((attempt len s).1, (attempt len s).2.withLive k r ct) := by
  have hrng : (s.withLive k r ct).rng = s.rng := rfl
  have hattempts : (s.withLive k r ct).attempts = s.attempts := rfl
  unfold attempt
  rw [State.withLive_lat s k r ct h, hrng, hattempts]
  split
  · rfl
  · split <;> rfl

end

/-- A step of a running command commutes with a change of the live registers. -/
theorem exec_withLive {i : Instr} {s t : State} (k : BitVec 16) (r : Word) (ct : Ctrl) (hb : s.eng ≠ .idle)
    (h : exec i s = .next t) : exec i (s.withLive k r ct) = .next (t.withLive k r ct) := by
  have hlat := State.withLive_lat s k r ct hb
  have hcfg : (s.withLive k r ct).cfg = s.cfg := rfl
  have htransform : ∀ x e, transformValue (s.withLive k r ct) x e = transformValue s x e := by
    intro x e
    unfold transformValue
    rw [hlat]
    rfl
  cases i with
  | nop => cases h; rfl
  | modexp rd ra rb rc => cases h; exact congrArg _ (State.complete_withLive ..)
  | modinv rd ra rb => cases h; exact congrArg _ (State.complete_withLive ..)
  | gcd rd ra rb => cases h; rfl
  | mrtest ra =>
    cases h
    simp only [exec, execMrtest, hlat]
    exact congrArg _ (State.complete_withLive { s with rng := _ } k r ct _)
  | primegen rd imm =>
    cases h
    simp only [exec, execPrimegen, hcfg, attempt_withLive s k r ct hb]
    split
    · rfl
    · rcases attempt (immValue imm) s with ⟨_ | _ | c, s'⟩ <;> rfl
  | keygen imm =>
    cases h
    simp only [exec, execKeygen, hcfg, attempt_withLive s k r ct hb]
    split
    · rfl
    · rcases attempt (primeLen imm) s with ⟨_ | _ | c, s'⟩
      · rfl
      · rfl
      · exact congrArg _ (keygenFound_withLive ..)
  | encrypt rd ra =>
    cases h
    simp only [exec, execEncrypt, htransform]
    exact congrArg _ (State.complete_withLive ..)
  | decrypt rd ra =>
    cases h
    simp only [exec, execDecrypt, htransform]
    exact congrArg _ (State.complete_withLive ..)

/-- Settles O12: the step commutes with a change of the live registers. -/
theorem runningCommandReadsOnlyItsLatch : Obligations.RunningCommandReadsOnlyItsLatch :=
  fun _ _ _ k r ct hb h => exec_withLive k r ct hb h

end Sys2Proof.Machine

/-! # State family, part 6: the registers of the map, reset and the interrupt -/

namespace Sys2Proof.Machine

/-! ### Bits and fields of the words -/

/-- `bitAt b n` is `b` at position `n` and 0 elsewhere. -/
@[simp] theorem bitAt_getLsbD (b : Bool) (n i : Nat) :
    (bitAt b n).getLsbD i = (decide (i < 32) && decide (i = n) && b) := by
  rcases Nat.lt_trichotomy i n with h | rfl | h
  · simp [bitAt, h, Nat.ne_of_lt h]
  · cases b <;> simp [bitAt]
  · have hne : i ≠ n := by omega
    have hsub : i - n ≠ 0 := by omega
    cases b <;> simp [bitAt, BitVec.getLsbD_one, hne, hsub]

/-- A bit of `STATUS` (R29). -/
theorem statusWord_getLsbD (s : State) (i : Nat) (hi : i < 32) :
    s.statusWord.getLsbD i =
      (decide (i = 0) && s.busy || decide (i = 1) && s.status.done || decide (i = 2) && s.status.result ||
        decide (i = 3) && s.keyValid || !decide (i < 4) && s.status.err.num.getLsbD (i - 4) ||
        decide (i = 8) && s.status.ovr || decide (i = 9) && s.status.werr || decide (i = 10) && s.status.fovr) := by
  have hfield : i - 4 < 32 := by omega
  simp only [State.statusWord, BitVec.getLsbD_or, bitAt_getLsbD, BitVec.getLsbD_shiftLeft, BitVec.getLsbD_setWidth, hi,
    hfield, decide_true, Bool.true_and]

/-- The ERR field of `STATUS` is the number of the code (R29, R231). -/
theorem statusWord_err (s : State) : s.statusWord.extractLsb' 4 4 = s.status.err.num := by
  ext i hi
  have hbit : (s.statusWord.extractLsb' 4 4)[i] = s.statusWord.getLsbD (4 + i) := by simp
  rw [hbit, statusWord_getLsbD s _ (by omega)]
  interval_cases i <;> simp

/-- The reserved bits of `STATUS` read 0 (R29). -/
theorem statusWord_lt (s : State) : s.statusWord.toNat < 2 ^ 11 := by
  apply Nat.lt_pow_two_of_testBit
  intro i hi
  rw [BitVec.testBit_toNat]
  rcases Nat.lt_or_ge i 32 with h | h
  · have hfield : s.status.err.num.getLsbD (i - 4) = false := BitVec.getLsbD_of_ge _ _ (by omega)
    have hne : ∀ j, j < 11 → i ≠ j := by omega
    rw [statusWord_getLsbD s i h, hfield]
    simp [hne]
  · exact BitVec.getLsbD_of_ge _ _ h

/-- The codes of R231, in the order of their numbers. -/
theorem errCode_at_num (e : ErrCode) :
    [ErrCode.ok, .illegal, .divzero, .notcoprime, .domain, .param, .exhausted, .nokey, .range, .rngempty][e.num.toNat]? =
      some e := by
  cases e <;> rfl

/-- `ID` is the sum of its fields (R27). -/
theorem idWord_toNat (s : State) : s.idWord.toNat = 0x4D520100 + s.cfg.words % 256 := by
  have hdisjoint : 0x4D520100#32 &&& (BitVec.ofNat 8 s.cfg.words).setWidth 32 = 0#32 := by
    ext i hi
    interval_cases i <;> simp
  have hsum : s.idWord = 0x4D520100#32 + (BitVec.ofNat 8 s.cfg.words).setWidth 32 :=
    (BitVec.add_eq_or_of_and_eq_zero _ _ hdisjoint).symm
  rw [hsum, BitVec.toNat_add_of_and_eq_zero hdisjoint]
  simp only [BitVec.toNat_setWidth, BitVec.toNat_ofNat]
  omega

/-- `CTRL` with the fields written from a word reads as the word's low three bits (R28). -/
theorem ctrlWord_of_bits (s : State) (v : Word)
    (h : s.ctrl = ⟨v.getLsbD 0, if v.getLsbD 1 then .fifo else .trng, v.getLsbD 2⟩) : s.ctrlWord = v &&& 7 := by
  have hsrc : (if v.getLsbD 1 then RngSrc.fifo else RngSrc.trng).bit = v.getLsbD 1 := by
    cases v.getLsbD 1 <;> rfl
  ext i hi
  rw [← BitVec.getLsbD_eq_getElem, ← BitVec.getLsbD_eq_getElem, State.ctrlWord, h]
  simp only [BitVec.getLsbD_or, bitAt_getLsbD, hsrc, BitVec.getLsbD_and]
  interval_cases i <;> simp

/-- The bytes of a word as numbers, most significant first (R41). -/
theorem bytesOf_eq (v : Word) :
    bytesOf v = [BitVec.ofNat 8 (v.toNat / 2 ^ 24), BitVec.ofNat 8 (v.toNat / 2 ^ 16), BitVec.ofNat 8 (v.toNat / 2 ^ 8),
      BitVec.ofNat 8 v.toNat] := by
  have hbyte : ∀ n, v.extractLsb' n 8 = BitVec.ofNat 8 (v.toNat / 2 ^ n) := by
    intro n
    rw [← Nat.shiftRight_eq_div_pow]
    rfl
  simp only [bytesOf, hbyte, Nat.pow_zero, Nat.div_one]

/-! ### The registers -/

/-- Settles O21: the sum of the fields, cut at their places, gives each field back. -/
theorem identityRegister : Obligations.IdentityRegister := by
  intro s rest hwf
  have hwords := Params.words_le hwf
  have hdef : s.cfg.words = s.cfg.opw / 32 := rfl
  have hid : s.idWord.toNat = 0x4D520100 + s.cfg.words := by
    rw [idWord_toNat, Nat.mod_eq_of_lt (by omega)]
  have hfield : ∀ n m, (s.idWord.extractLsb' n m).toNat = (0x4D520100 + s.cfg.words) / 2 ^ n % 2 ^ m := by
    intro n m
    rw [BitVec.extractLsb'_toNat, Nat.shiftRight_eq_div_pow, hid]
  refine ⟨s.idWord, step_read_slot s (off := 0) (sl := .id) (by decide) rfl rfl rest, hid, ?_, ?_, ?_,
    fun v => step_write_slot s (off := 0) (sl := .id) (by decide) rfl rfl rfl v rest⟩
  · apply BitVec.eq_of_toNat_eq
    rw [hfield]
    change _ = 0x4D52
    omega
  · apply BitVec.eq_of_toNat_eq
    rw [hfield]
    change _ = 0x01
    omega
  · rw [hfield]
    omega

/-- Settles O23: the bits of `STATUS` one by one. -/
theorem statusLayout : Obligations.StatusLayout := by
  intro s rest
  have hread := step_read_slot s (off := 0x008) (sl := .status) (by decide) rfl rfl rest
  have bit := statusWord_getLsbD s
  have hbusy : s.statusWord.getLsbD 0 = s.busy := (bit 0 (by decide)).trans (by simp)
  refine ⟨hread, by rw [hbusy]; exact s.busy_iff, ?_, ?_, ?_, ?_, ?_, ?_, ?_, statusWord_lt s⟩
  · exact (bit 1 (by decide)).trans (by simp)
  · exact (bit 2 (by decide)).trans (by simp)
  · exact (bit 3 (by decide)).trans (by simp)
  · rw [statusWord_err]
    exact errCode_at_num _
  · exact (bit 8 (by decide)).trans (by simp)
  · exact (bit 9 (by decide)).trans (by simp)
  · exact (bit 10 (by decide)).trans (by simp)

/-- A write of `STATUS` clears the bits written as 1 (R29). -/
theorem writeStatus_eq (s : State) (v : Word) :
    s.writeStatus v =
      { s with
        status :=
          { s.status with
            done := if v.getLsbD 1 then false else s.status.done
            ovr := if v.getLsbD 8 then false else s.status.ovr
            werr := if v.getLsbD 9 then false else s.status.werr
            fovr := if v.getLsbD 10 then false else s.status.fovr } } := by
  have hclear : ∀ a b : Bool, (a && !b) = if b then false else a := by decide
  simp only [State.writeStatus, hclear]

/-- Settles O24: the write reaches `STATUS`, by `writeStatus_eq`. -/
theorem statusWriteOneClears : Obligations.StatusWriteOneClears := by
  intro s v rest
  rw [step_write_slot s (off := 0x008) (sl := .status) (by decide) rfl rfl rfl v rest]
  simp only [State.writeSlot, writeStatus_eq]

/-- A write of `CTRL` while idle (R28). -/
theorem writeCtrl_idle {s : State} (h : s.eng = .idle) (v : Word) :
    s.writeCtrl v =
      { s with
        ctrl := ⟨v.getLsbD 0, if v.getLsbD 1 then .fifo else .trng, v.getLsbD 2⟩
        rng := { s.rng with queue := if v.getLsbD 3 then [] else s.rng.queue } } := by
  have hb := s.busy_eq_false_iff.mpr h
  unfold State.writeCtrl RngSrc.ofBit
  cases v.getLsbD 3 <;> simp [hb]

/-- Settles O25: the write sets the fields, which the read gives back. -/
theorem controlRegister : Obligations.ControlRegister := by
  intro s v rest h
  have hwrite := writeCtrl_idle (s := { s with turns := .host (.read (s.cfg.base + 0x004) 4) :: rest }) h v
  refine ⟨_, ?_, rfl, ?_⟩
  · rw [step_write_slot s (off := 0x004) (sl := .ctrl) (by decide) rfl rfl rfl v, State.writeSlot, hwrite]
  · rw [step_read_slot (off := 0x004) (sl := .ctrl) _ (by decide) rfl rfl rest, State.readSlot, ctrlWord_of_bits _ v rfl]

/-- A write of `RNG_DATA` while idle with room for four bytes (R41). -/
theorem writeRngData_room {s : State} (h : s.eng = .idle) (hroom : s.rng.queue.length + 4 ≤ s.cfg.fifoBytes) (v : Word) :
    s.writeRngData v = { s with rng := { s.rng with queue := s.rng.queue ++ bytesOf v } } := by
  rw [State.writeRngData, s.busy_eq_false_iff.mpr h, if_neg Bool.false_ne_true, if_pos hroom]

/-- A write of `RNG_DATA` while idle without that room (R41). -/
theorem writeRngData_full {s : State} (h : s.eng = .idle) (hfull : s.cfg.fifoBytes < s.rng.queue.length + 4) (v : Word) :
    s.writeRngData v = { s with status := { s.status with fovr := true } } := by
  rw [State.writeRngData, s.busy_eq_false_iff.mpr h, if_neg Bool.false_ne_true, if_neg (Nat.not_le.mpr hfull)]

/-- A write of `RNG_DATA` while busy (R41, R281). -/
theorem writeRngData_busy {s : State} (h : s.eng ≠ .idle) (v : Word) : s.writeRngData v = s.setWerr := by
  rw [State.writeRngData, if_pos (s.busy_iff.mpr h)]

/-- Settles O28: the three cases of a write of `RNG_DATA`. -/
theorem randomFifoPush : Obligations.RandomFifoPush := by
  intro s v rest
  have hwrite := step_write_slot s (off := 0x024) (sl := .rngData) (by decide) rfl rfl rfl v rest
  rw [State.writeSlot] at hwrite
  refine ⟨fun h hroom => ?_, fun h hfull => ?_, fun h => ?_⟩
  · rw [hwrite, writeRngData_room (s := { s with turns := rest }) h hroom, bytesOf_eq]
  · rw [hwrite, writeRngData_full (s := { s with turns := rest }) h hfull]
  · rw [hwrite, writeRngData_busy (s := { s with turns := rest }) h, State.setWerr]

/-! ### Reset and the interrupt -/

theorem ctrlWord_rst (s : State) : s.rst.ctrlWord = 4 := by
  simp only [State.ctrlWord, State.rst_ctrl]
  decide

theorem statusWord_rst (s : State) : s.rst.statusWord = 0 := by
  simp only [State.statusWord, State.busy, State.rst_eng, State.rst_status, State.rst_keyValid]
  decide

/-- Settles O29: each field of the reset state and each word it reads as. -/
theorem resetValues : Obligations.ResetValues := by
  intro s rest
  refine ⟨_, step_reset s rest, fun i => ?_, rfl, rfl, ctrlWord_rst _, statusWord_rst _,
    rfl, rfl, rfl, rfl, rfl, rfl, rfl, rfl, rfl, rfl, rfl, rfl⟩
  simp

theorem irq_eq_false_of_done {s : State} (h : s.status.done = false) : s.irq = false := by simp [State.irq, h]

theorem irq_eq_false_of_ie {s : State} (h : s.ctrl.ie = false) : s.irq = false := by simp [State.irq, h]

/-- A write of `CTRL` sets IE from bit 0, idle or busy (R28). -/
theorem writeCtrl_ie (s : State) (v : Word) : (s.writeCtrl v).ctrl.ie = v.getLsbD 0 := by
  unfold State.writeCtrl
  dsimp only
  split
  · split <;> rfl
  · rfl

/-- Settles O59: the first two writes clear DONE, the third clears IE. -/
theorem interruptIsALevel : Obligations.InterruptIsALevel := by
  intro s
  refine ⟨by simp [State.irq], fun v rest => ⟨fun hv => ?_, fun hidle => ?_, fun hv => ?_⟩⟩
  · refine ⟨_, step_write_slot s (off := 0x008) (sl := .status) (by decide) rfl rfl rfl v rest, irq_eq_false_of_done ?_⟩
    simp [State.writeSlot, State.writeStatus, hv]
  · refine ⟨_, step_write_slot s (off := 0x00C) (sl := .cmd) (by decide) rfl rfl rfl v rest, irq_eq_false_of_done ?_⟩
    simp [State.writeSlot, State.writeCmd, State.busy, hidle]
  · refine ⟨_, step_write_slot s (off := 0x004) (sl := .ctrl) (by decide) rfl rfl rfl v rest, irq_eq_false_of_ie ?_⟩
    exact (writeCtrl_ie { s with turns := rest } v).trans hv

end Sys2Proof.Machine

/-! # Memory family: the bus

What an access of the host changes and what it answers, over every slot of the map (R60 to R72). -/

namespace Sys2Proof.Machine

/-! ### Accesses that reach no register -/

/-- The offsets the map has no register at: the two reserved ranges (R63), and the words beyond the last of a big
register or of a key-bank register (R66, R67). -/
theorem slotAt_eq_none {c : Params} {off : Nat}
    (h : (0x02C ≤ off ∧ off < 0x1000) ∨ 0x2C00 ≤ off ∨ (0x1000 ≤ off ∧ 4 * c.words ≤ off % 0x200)) :
    slotAt c off = none := by
  rcases Nat.lt_or_ge off 0x1000 with hlow | hhigh
  · rw [slotAt_ctrl c hlow]
    exact List.getElem?_eq_none (show 11 ≤ off / 4 by omega)
  · by_cases hword : off % 0x200 / 4 < c.words
    · have hkey : keyRegAt ((off - 0x2000) / 0x200) = none :=
        List.getElem?_eq_none (show 6 ≤ (off - 0x2000) / 0x200 by omega)
      have hbig : ¬ off < 0x2000 := by omega
      simp only [slotAt, if_neg (Nat.not_lt.mpr hhigh), if_neg hbig, hkey, Option.map_none, ite_self]
    · simp only [slotAt, if_neg (Nat.not_lt.mpr hhigh), if_neg hword, ite_self]

theorem busRead_of_busSlot_error {s : State} {off width : Nat} {f : Fault} (h : busSlot s.cfg off width = .error f) :
    busRead s off width = .error f := by
  rw [busRead, h]
  rfl

theorem busWrite_of_busSlot_error {s : State} {off width : Nat} {f : Fault} (v : Word)
    (h : busSlot s.cfg off width = .error f) : busWrite s off width v = .error f := by
  rw [busWrite, h]

/-- A write of a key-bank word is a bus error (R65, R67). -/
theorem busWrite_key {s : State} {off j : Nat} {k : KeyReg} (v : Word) (h : busSlot s.cfg off 4 = .ok (.key k j)) :
    busWrite s off 4 v = .error (.busFault off) := by
  rw [busWrite, h]

/-- A host read with a bus error changes nothing but the answer (R62, R235). -/
theorem step_read_error (s : State) {off width : Nat} {f : Fault} (hoff : off < 0x3000)
    (h : busRead s off width = .error f) (rest : List Turn) :
    step { s with turns := .host (.read (s.cfg.base + off) width) :: rest } =
      .next { s with turns := rest, resp := some (.error f) } := by
  rw [step_read s hoff, access_read, readAnswer, busRead_turns_resp s rest s.resp, h]

/-- A host write with a bus error changes nothing but the answer (R62, R235). -/
theorem step_write_error (s : State) {off width : Nat} {f : Fault} (v : Word) (rest : List Turn) (hoff : off < 0x3000)
    (h : busWrite { s with turns := rest } off width v = .error f) :
    step { s with turns := .host (.write (s.cfg.base + off) width v) :: rest } =
      .next { s with turns := rest, resp := some (.error f) } := by
  rw [step_write s hoff]
  simp only [State.access, h]

/-- Settles O18: neither the read nor the write reaches a register. -/
theorem busErrorChangesNothing : Obligations.BusErrorChangesNothing := by
  intro s off width v rest hoff h
  have hslot : busSlot s.cfg off width = .error (.busFault off) := by
    refine busSlot_none ?_
    rcases h with hwidth | halign | hreserved
    · exact .inl hwidth
    · exact .inr (.inl halign)
    · exact .inr (.inr (slotAt_eq_none hreserved))
  exact ⟨step_read_error s hoff (busRead_of_busSlot_error hslot) rest,
    step_write_error s v rest hoff (busWrite_of_busSlot_error (s := { s with turns := rest }) v hslot)⟩

/-! ### Accesses while busy -/

/-- Settles O13: an access records an answer and writes at most one register, none of which is the command's. -/
theorem hostCannotDisturbARunningCommand : Obligations.HostCannotDisturbARunningCommand := by
  intro s t a rest hbusy h
  rw [step_host] at h
  rcases hostStep_cases a { s with turns := rest } with ⟨off, -, -, e⟩ | ⟨-, e⟩ <;> (rw [e] at h; cases h)
  obtain ⟨r, e | ⟨sl, v, -, -, -, e⟩⟩ := access_cases { s with turns := rest } off a <;> rw [e]
  · exact ⟨rfl, rfl, rfl, rfl, rfl, rfl, rfl, rfl, rfl, rfl, rfl⟩
  · obtain ⟨hkey, hvalid, hcfg, -, -⟩ := writeSlot_keeps { s with turns := rest } v sl
    obtain ⟨heng, hregs, hrng, hattempts, hrestarts, herrinfo, herr, hresult⟩ :=
      writeSlot_busy (s := { s with turns := rest }) (s.busy_iff.mpr hbusy) v sl
    exact ⟨heng, hregs, hkey, hvalid, hrng, hattempts, hrestarts, herrinfo, herr, hresult, hcfg⟩

/-! ### Reads -/

/-- A host read goes on exactly inside the window, and then only records its answer (R61, R72). -/
theorem step_read_eq_next_iff {s t : State} {addr width : Nat} {rest : List Turn} :
    step { s with turns := .host (.read addr width) :: rest } = .next t ↔
      ∃ off, windowOffset s.cfg addr = some off ∧
        t = { s with turns := rest, resp := some (readAnswer s off width) } := by
  have hanswer : ∀ off, readAnswer { s with turns := rest } off width = readAnswer s off width := fun off => by
    rw [readAnswer, readAnswer, busRead_turns_resp s rest s.resp]
  rw [step_host]
  unfold hostStep
  cases hw : windowOffset s.cfg addr with
  | none => simp [Access.addr, hw]
  | some off => simp [Access.addr, hw, access_read, hanswer, eq_comm]

/-- Settles O20: the answer a read records is no part of what the same read answers next. -/
theorem readsChangeNothing : Obligations.ReadsChangeNothing := by
  intro s t addr width rest h
  obtain ⟨off, hoff, rfl⟩ := step_read_eq_next_iff.mp h
  refine ⟨rfl, step_read_eq_next_iff.mpr ⟨off, hoff, ?_⟩⟩
  simp only [readAnswer, busRead_turns_resp]

/-- A read sees of the state only the register the access reaches. -/
theorem busRead_congr {s t : State} {off width : Nat} (hcfg : t.cfg = s.cfg)
    (h : ∀ sl, busSlot s.cfg off width = .ok sl → t.readSlot sl = s.readSlot sl) :
    busRead t off width = busRead s off width := by
  unfold busRead
  rw [hcfg]
  cases hb : busSlot s.cfg off width with
  | error f => rfl
  | ok sl => simp only [Except.map, h sl hb]

/-! ### The big registers -/

/-- A write of a word of a big register while idle (R66). -/
theorem writeBig_idle {s : State} (h : s.eng = .idle) (i : Fin 8) (j : Nat) (v : Word) :
    s.writeBig i j v = s.setReg i (putWord s.regs[i] j v) := by
  rw [State.writeBig, s.busy_eq_false_iff.mpr h, if_neg Bool.false_ne_true]

/-- Another slot than the word written reads as before (R66). -/
theorem readSlot_putWord_other {s : State} {i : Fin 8} {j : Nat} {v : Word} {sl : Slot} (h : sl ≠ .big i j) :
    (s.setReg i (putWord s.regs[i] j v)).readSlot sl = s.readSlot sl := by
  cases sl with
  | big k l =>
    simp only [State.readSlot, State.setReg_get]
    split
    · next hik =>
      subst hik
      exact wordOf_putWord_other _ _ _ _ fun hlj => h (by rw [hlj])
    · rfl
  | _ => rfl

/-- Settles O26: at every other offset the map has another slot. -/
theorem bigRegisterWordReadsBack : Obligations.BigRegisterWordReadsBack := by
  intro s i j v rest hwf hidle hj
  have hi := i.isLt
  have hwords := Params.words_le hwf
  have hslot := slotAt_big hwf i hj
  refine ⟨putWord s.regs[i] j v, ?_, ?_, fun off width hne => ?_⟩
  · rw [step_write_slot s (by omega) (by omega) hslot rfl, State.writeSlot,
      writeBig_idle (s := { s with turns := rest }) hidle]
    rfl
  · refine (busRead_of_slot (s := s.setReg i (putWord s.regs[i] j v)) (busSlot_of_slotAt (by omega) hslot)).trans ?_
    simp only [State.readSlot, State.setReg_get, if_true, wordOf_putWord_same]
  · refine busRead_congr (t := s.setReg i (putWord s.regs[i] j v)) rfl fun sl hb => readSlot_putWord_other ?_
    rintro rfl
    obtain ⟨-, halign, hsl⟩ := busSlot_ok_iff.mp hb
    exact hne (slotAt_eq_big halign hsl).1

/-! ### The access rules and the values of the registers (R65, R28 to R37, R66, R67) -/

/-- The slot of word `j` of the key-bank register number `k` (R67). -/
theorem slotAt_keyReg {c : Params} (h : c.wf = true) {k j : Nat} {r : KeyReg} (hr : keyRegAt k = some r)
    (hj : j < c.words) : slotAt c (0x2000 + 0x200 * k + 4 * j) = some (.key r j) := by
  rw [slotAt_key h hj, hr, Option.map_some]

/-- Settles O19: the map's slots at these offsets, and for the key bank the bus error. -/
theorem readOnlyAndWriteOnlyRegisters : Obligations.ReadOnlyAndWriteOnlyRegisters := by
  intro s v rest hwf
  refine ⟨fun off hoff => ?_, fun off hoff => ?_, fun k j hk hj => ?_⟩
  · simp only [List.mem_cons, List.not_mem_nil, or_false] at hoff
    rcases hoff with rfl | rfl | rfl | rfl | rfl
    · exact step_write_slot s (sl := .id) (by decide) rfl rfl rfl v rest
    · exact step_write_slot s (sl := .attempts) (by decide) rfl rfl rfl v rest
    · exact step_write_slot s (sl := .restarts) (by decide) rfl rfl rfl v rest
    · exact step_write_slot s (sl := .errinfo) (by decide) rfl rfl rfl v rest
    · exact step_write_slot s (sl := .rngLevel) (by decide) rfl rfl rfl v rest
  · simp only [List.mem_cons, List.not_mem_nil, or_false] at hoff
    rcases hoff with rfl | rfl
    · exact step_read_slot s (sl := .cmd) (by decide) rfl rfl rest
    · exact step_read_slot s (sl := .rngData) (by decide) rfl rfl rest
  · have hwords := Params.words_le hwf
    obtain ⟨r, hr⟩ : ∃ r, keyRegAt k = some r := ⟨_, List.getElem?_eq_getElem hk⟩
    exact step_write_error s v rest (by omega)
      (busWrite_key (s := { s with turns := rest }) v (busSlot_of_slotAt (by omega) (slotAt_keyReg hwf hr hj)))

/-- A host read of a register whose value is that of the word `w`. -/
theorem step_read_word (s : State) {off : Nat} {sl : Slot} {w : Word} (h : off < 0x3000) (ha : off % 4 = 0)
    (hs : slotAt s.cfg off = some sl) (hw : w.toNat = (s.readSlot sl).toNat) (rest : List Turn) :
    step { s with turns := .host (.read (s.cfg.base + off) 4) :: rest } =
      .next { s with turns := rest, resp := some (.data w) } := by
  rw [step_read_slot s h ha hs, BitVec.eq_of_toNat_eq hw]

/-- `CTRL` is the sum of its three bits (R28). -/
theorem ctrlWord_toNat (s : State) :
    s.ctrlWord.toNat =
      s.ctrl.ie.toNat + 2 * (if s.ctrl.rngsrc = .fifo then 1 else 0) + 4 * s.ctrl.rchk.toNat := by
  rcases hc : s.ctrl with ⟨ie, src, rchk⟩
  rw [State.ctrlWord, hc]
  cases ie <;> cases src <;> cases rchk <;> rfl

theorem mrRoundsWord_toNat (s : State) : s.mrRoundsWord.toNat = s.mrRounds.toNat :=
  BitVec.toNat_setWidth_of_le (by decide)

/-- `RNG_LEVEL` is the number of bytes, where it fits (R37). -/
theorem rngLevelWord_toNat {s : State} (h : s.rng.queue.length < 2 ^ 32) :
    s.rngLevelWord.toNat = s.rng.queue.length := by
  rw [State.rngLevelWord, BitVec.toNat_ofNat, Nat.mod_eq_of_lt h]

/-- The key-bank registers in the order of their numbers (R67). -/
theorem KeyBank.getElem?_eq (key : KeyBank) (k : Nat) :
    [key.p, key.q, key.n, key.phi, key.e, key.d][k]? = (keyRegAt k).map key.get := by
  rw [keyRegAt, ← List.getElem?_map]
  rfl

/-- Settles O22: the slot at each offset, and the number its word stands for. -/
theorem registersReadTheirValue : Obligations.RegistersReadTheirValue := by
  intro s rest hwf hqueue hfifo
  have hwords := Params.words_le hwf
  refine ⟨fun off w hmem => ?_, fun i j w hj hw => ?_, fun k j x w hj hx hw => ?_⟩
  · simp only [List.mem_cons, Prod.mk.injEq, List.not_mem_nil, or_false] at hmem
    rcases hmem with ⟨rfl, hw⟩ | ⟨rfl, hw⟩ | ⟨rfl, hw⟩ | ⟨rfl, hw⟩ | ⟨rfl, hw⟩ | ⟨rfl, hw⟩ | ⟨rfl, hw⟩
    · exact step_read_word s (sl := .ctrl) (by decide) rfl rfl (hw.trans (ctrlWord_toNat s).symm) rest
    · exact step_read_word s (sl := .mrRounds) (by decide) rfl rfl (hw.trans (mrRoundsWord_toNat s).symm) rest
    · exact step_read_word s (sl := .retryMax) (by decide) rfl rfl hw rest
    · exact step_read_word s (sl := .attempts) (by decide) rfl rfl hw rest
    · exact step_read_word s (sl := .restarts) (by decide) rfl rfl hw rest
    · exact step_read_word s (sl := .errinfo) (by decide) rfl rfl hw rest
    · have hlevel := rngLevelWord_toNat (Nat.lt_of_le_of_lt hqueue hfifo)
      exact step_read_word s (sl := .rngLevel) (by decide) rfl rfl (hw.trans hlevel.symm) rest
  · have hi := i.isLt
    exact step_read_word s (by omega) (by omega) (slotAt_big hwf i hj) (hw.trans (wordOf_toNat _ j).symm) rest
  · rw [KeyBank.getElem?_eq] at hx
    obtain ⟨r, hr, rfl⟩ := Option.map_eq_some_iff.mp hx
    have hk := keyRegAt_lt hr
    exact step_read_word s (by omega) (by omega) (slotAt_keyReg hwf hr hj) (hw.trans (wordOf_toNat _ j).symm) rest

end Sys2Proof.Machine

/-! # Encoding family, part 1: the word and its fields

A word is known by its fields (R91, R92), and a mask acts on it field by field. -/

namespace Sys2Proof

/-! ### The fields of a word -/

/-- Bits 7:0: `Z8` of format R (R91). -/
def fieldZ8 (c : Word) : BitVec 8 := c.extractLsb' 0 8

/-- `IMM16` is the three low fields of format R (R91, R92). -/
theorem fieldImm_eq_append (c : Word) : fieldImm c = fieldRb c ++ (fieldRc c ++ fieldZ8 c) := by
  have hrc : fieldRc c ++ fieldZ8 c = c.extractLsb' 0 12 := BitVec.extractLsb'_append_extractLsb'_eq_extractLsb' rfl
  have hrb : fieldRb c ++ c.extractLsb' 0 12 = fieldImm c := BitVec.extractLsb'_append_extractLsb'_eq_extractLsb' rfl
  rw [hrc, hrb]

/-- A word is its fields of format I (R92). -/
theorem word_eq_append (c : Word) : c = fieldOpc c ++ (fieldRd c ++ (fieldRa c ++ fieldImm c)) := by
  have hra : fieldRa c ++ fieldImm c = c.extractLsb' 0 20 := BitVec.extractLsb'_append_extractLsb'_eq_extractLsb' rfl
  have hrd : fieldRd c ++ c.extractLsb' 0 20 = c.extractLsb' 0 24 :=
    BitVec.extractLsb'_append_extractLsb'_eq_extractLsb' rfl
  have hopc : fieldOpc c ++ c.extractLsb' 0 24 = c.extractLsb' 0 32 :=
    BitVec.extractLsb'_append_extractLsb'_eq_extractLsb' rfl
  rw [hra, hrd, hopc, BitVec.extractLsb'_eq_self]

/-- A word is known by its fields of format I (R92). -/
theorem word_eq_iff_fieldsI {c d : Word} :
    c = d ↔ fieldOpc c = fieldOpc d ∧ fieldRd c = fieldRd d ∧ fieldRa c = fieldRa d ∧ fieldImm c = fieldImm d := by
  refine ⟨fun h => h ▸ ⟨rfl, rfl, rfl, rfl⟩, fun ⟨hopc, hrd, hra, himm⟩ => ?_⟩
  rw [word_eq_append c, word_eq_append d, hopc, hrd, hra, himm]

/-- A word is known by its fields of format R (R91). -/
theorem word_eq_iff_fieldsR {c d : Word} :
    c = d ↔ fieldOpc c = fieldOpc d ∧ fieldRd c = fieldRd d ∧ fieldRa c = fieldRa d ∧ fieldRb c = fieldRb d ∧
      fieldRc c = fieldRc d ∧ fieldZ8 c = fieldZ8 d := by
  refine ⟨fun h => h ▸ ⟨rfl, rfl, rfl, rfl, rfl, rfl⟩, fun ⟨hopc, hrd, hra, hrb, hrc, hz8⟩ => ?_⟩
  have himm : fieldImm c = fieldImm d := by rw [fieldImm_eq_append, fieldImm_eq_append, hrb, hrc, hz8]
  exact word_eq_iff_fieldsI.mpr ⟨hopc, hrd, hra, himm⟩

theorem fieldOpc_toNat (c : Word) : (fieldOpc c).toNat = c.toNat / 2 ^ 24 := by
  have hc := c.isLt
  rw [fieldOpc, BitVec.extractLsb'_toNat, Nat.shiftRight_eq_div_pow]
  omega

/-- A mask acts on a word field by field. -/
theorem and_eq_iff_fields {c m p : Word} :
    c &&& m = p ↔ fieldOpc c &&& fieldOpc m = fieldOpc p ∧ fieldRd c &&& fieldRd m = fieldRd p ∧
      fieldRa c &&& fieldRa m = fieldRa p ∧ fieldRb c &&& fieldRb m = fieldRb p ∧ fieldRc c &&& fieldRc m = fieldRc p ∧
      fieldZ8 c &&& fieldZ8 m = fieldZ8 p := by
  simp only [word_eq_iff_fieldsR, fieldOpc, fieldRd, fieldRa, fieldRb, fieldRc, fieldZ8, BitVec.extractLsb'_and]

/-! ### The fields of an encoding -/

/-- A field put at its place is read back from there. -/
theorem extractLsb'_shiftLeft_same {n : Nat} (x : BitVec n) {a : Nat} (h : a + n ≤ 32) :
    (x.setWidth 32 <<< a).extractLsb' a n = x := by
  ext i hi
  have hbit : a + i < 32 := by omega
  simp [hbit, BitVec.getLsbD_eq_getElem hi]

/-- A field put at another place leaves 0 here. -/
theorem extractLsb'_shiftLeft_disjoint {m n : Nat} (x : BitVec m) {p a : Nat} (h : p + m ≤ a ∨ a + n ≤ p) :
    (x.setWidth 32 <<< p).extractLsb' a n = 0#n := by
  ext i hi
  rcases (by omega : p + m ≤ a + i ∨ a + i < p) with hover | hunder
  · have hbit : x.getLsbD (a + i - p) = false := BitVec.getLsbD_of_ge _ _ (by omega)
    simp [hbit]
  · simp [hunder]

/-- The fields of the word `formatR` builds (R91). -/
theorem eq_formatR_iff {c : Word} {opc : BitVec 8} {rd ra rb rc : RegField} :
    c = formatR opc rd ra rb rc ↔
      fieldOpc c = opc ∧ fieldRd c = rd ∧ fieldRa c = ra ∧ fieldRb c = rb ∧ fieldRc c = rc ∧ fieldZ8 c = 0#8 := by
  rw [word_eq_iff_fieldsR]
  simp [fieldOpc, fieldRd, fieldRa, fieldRb, fieldRc, fieldZ8, formatR, BitVec.extractLsb'_or,
    extractLsb'_shiftLeft_same, extractLsb'_shiftLeft_disjoint]

/-- The fields of the word `formatI` builds (R92). -/
theorem eq_formatI_iff {c : Word} {opc : BitVec 8} {rd : RegField} {imm : BitVec 16} :
    c = formatI opc rd imm ↔ fieldOpc c = opc ∧ fieldRd c = rd ∧ fieldRa c = 0#4 ∧ fieldImm c = imm := by
  have hplace : imm.setWidth 32 = imm.setWidth 32 <<< 0 := (BitVec.shiftLeft_zero _).symm
  rw [word_eq_iff_fieldsI, formatI, hplace]
  simp only [fieldOpc, fieldRd, fieldRa, fieldImm, BitVec.extractLsb'_or, extractLsb'_shiftLeft_same,
    extractLsb'_shiftLeft_disjoint, Nat.reduceAdd, Nat.reduceLeDiff, or_true, true_or, BitVec.or_zero, BitVec.zero_or]

theorem fields_formatR (opc : BitVec 8) (rd ra rb rc : RegField) :
    fieldOpc (formatR opc rd ra rb rc) = opc ∧ fieldRd (formatR opc rd ra rb rc) = rd ∧
      fieldRa (formatR opc rd ra rb rc) = ra ∧ fieldRb (formatR opc rd ra rb rc) = rb ∧
      fieldRc (formatR opc rd ra rb rc) = rc ∧ fieldZ8 (formatR opc rd ra rb rc) = 0#8 :=
  eq_formatR_iff.mp rfl

theorem fields_formatI (opc : BitVec 8) (rd : RegField) (imm : BitVec 16) :
    fieldOpc (formatI opc rd imm) = opc ∧ fieldRd (formatI opc rd imm) = rd ∧ fieldRa (formatI opc rd imm) = 0#4 ∧
      fieldImm (formatI opc rd imm) = imm :=
  eq_formatI_iff.mp rfl

/-- Every encoding carries its command's opcode (R91, R92). -/
theorem fieldOpc_encode (i : Instr) : fieldOpc (encode i) = i.opc := by
  cases i <;> simp only [encode, fields_formatR, fields_formatI]

end Sys2Proof

/-! # Encoding family, part 2: the opcode table and the decoder

The mask of a row holds exactly the encodings of the row's well-formed commands (`Row.hits_iff_encode`); the decoder's
properties follow from that. -/

namespace Sys2Proof

/-! ### The rows -/

/-- The match of a row is the word of its opcode with every field 0 (R100). -/
theorem Row.pat_eq_formatR (r : Row) : r.pat = formatR r.opc 0#4 0#4 0#4 0#4 := by
  simp [Row.pat, formatR]

/-- What a row asks of a word, field by field (R100). -/
theorem Row.hits_iff_fields (r : Row) (c : Word) :
    r.hits c = true ↔ fieldOpc c &&& fieldOpc r.mask = r.opc ∧ fieldRd c &&& fieldRd r.mask = 0#4 ∧
      fieldRa c &&& fieldRa r.mask = 0#4 ∧ fieldRb c &&& fieldRb r.mask = 0#4 ∧ fieldRc c &&& fieldRc r.mask = 0#4 ∧
      fieldZ8 c &&& fieldZ8 r.mask = 0#8 := by
  rw [Row.hits, beq_iff_eq, Row.pat_eq_formatR, and_eq_iff_fields]
  simp only [fields_formatR]

/-- A register field is well-formed exactly if its bit 3 is 0 (R95). -/
theorem RegField.and_eight_eq_zero_iff (r : RegField) : r &&& 8#4 = 0#4 ↔ RegField.wf r = true := by
  revert r
  decide

/-- A row holds exactly the encodings of its well-formed commands: of each field the mask keeps bit 3 where the command
uses it (R95), and every bit where it does not (R96). -/
theorem Row.hits_iff_encode {r : Row} (h : r ∈ rows) (c : Word) :
    r.hits c = true ↔ c = encode (r.build c) ∧ (r.build c).wf = true := by
  have hnibble : ∀ x : BitVec 4, x &&& 15#4 = x := fun _ => BitVec.and_allOnes
  have hbyte : ∀ x : BitVec 8, x &&& 255#8 = x := fun _ => BitVec.and_allOnes
  rw [Row.hits_iff_fields]
  simp only [rows, List.mem_cons, List.not_mem_nil, or_false] at h
  rcases h with rfl | rfl | rfl | rfl | rfl | rfl | rfl | rfl | rfl <;>
    simp [encode, Instr.opc, Instr.wf, eq_formatR_iff, eq_formatI_iff, fieldOpc, fieldRd, fieldRa, fieldRb, fieldRc,
      fieldZ8, hnibble, hbyte, RegField.and_eight_eq_zero_iff] <;> tauto

/-- A row builds commands of its opcode. -/
theorem Row.build_opc {r : Row} (h : r ∈ rows) (c : Word) : (r.build c).opc = r.opc := by
  simp only [rows, List.mem_cons, List.not_mem_nil, or_false] at h
  rcases h with rfl | rfl | rfl | rfl | rfl | rfl | rfl | rfl | rfl <;> rfl

/-- A row holds words of its opcode only. -/
theorem Row.fieldOpc_of_hits {r : Row} (h : r ∈ rows) {c : Word} (hc : r.hits c = true) : fieldOpc c = r.opc := by
  obtain ⟨hencode, -⟩ := (Row.hits_iff_encode h c).mp hc
  rw [hencode, fieldOpc_encode, Row.build_opc h]

/-- Settles O3: both rows have the word's opcode. -/
theorem rowsAreDisjoint : Obligations.RowsAreDisjoint := by
  intro c r₁ hr₁ r₂ hr₂ hhit₁ hhit₂
  rw [← Row.fieldOpc_of_hits hr₁ hhit₁, Row.fieldOpc_of_hits hr₂ hhit₂]

/-! ### The row of a command -/

theorem Instr.opc_lt (i : Instr) : i.opc.toNat < 9 := by
  cases i <;> simp [Instr.opc]

/-- The row of a command: the rows stand in the order of their opcodes (R94, R100). -/
def Instr.row (i : Instr) : Row := rows[i.opc.toNat]'i.opc_lt

theorem Instr.row_mem (i : Instr) : i.row ∈ rows := List.getElem_mem _

theorem rows_find?_opc (i : Instr) : rows.find? (fun r => r.opc == i.opc) = some i.row := by
  cases i <;> rfl

/-- The row of a command builds it again from its encoding, well-formed or not. -/
theorem Instr.row_build_encode (i : Instr) : i.row.build (encode i) = i := by
  cases i <;> simp [Instr.row, rows, Instr.opc, encode, fields_formatR, fields_formatI]

theorem encode_injective : Function.Injective encode := by
  intro i j h
  have hopc : i.opc = j.opc := by rw [← fieldOpc_encode, h, fieldOpc_encode]
  have hrow : i.row = j.row := Option.some.inj (by rw [← rows_find?_opc, hopc, rows_find?_opc])
  rw [← i.row_build_encode, h, hrow, j.row_build_encode]

/-- The row of a command holds its encoding exactly if the command is well-formed (R95). -/
theorem Instr.row_hits_encode_iff (i : Instr) : i.row.hits (encode i) = true ↔ i.wf = true := by
  rw [Row.hits_iff_encode i.row_mem, i.row_build_encode, eq_self, true_and]

/-- An encoding is 0 in the fields its command does not use (R96). -/
theorem encode_and_unused (i : Instr) : encode i &&& i.row.unused = 0 := by
  rw [and_eq_iff_fields]
  cases i <;> simp only [encode, fields_formatR, fields_formatI] <;>
    simp [Instr.row, rows, Instr.opc, Row.unused, fieldOpc, fieldRd, fieldRa, fieldRb, fieldRc, fieldZ8]

/-! ### The decoder -/

/-- Everything the decoder can do: read the command of a row that holds the word, or name what is wrong where none does
(R100). -/
theorem decode_cases (c : Word) :
    (∃ r ∈ rows, r.hits c = true ∧ decode c = .ok (r.build c)) ∨
    ((∀ r ∈ rows, r.hits c = false) ∧ decode c = .error (whyIllegal c)) := by
  unfold decode
  cases h : rows.find? fun r => r.hits c with
  | some r => exact .inl ⟨r, List.mem_of_find?_eq_some h, List.find?_some (p := (Row.hits · c)) h, rfl⟩
  | none => exact .inr ⟨by simpa using h, rfl⟩

/-- Settles O2: the row that holds the word holds encodings of well-formed commands only. -/
theorem decodedWordIsItsEncoding : Obligations.DecodedWordIsItsEncoding := by
  intro c i h
  rcases decode_cases c with ⟨r, hr, hhit, e⟩ | ⟨-, e⟩ <;> rw [e] at h <;> cases h
  obtain ⟨hencode, hwf⟩ := (Row.hits_iff_encode hr c).mp hhit
  exact ⟨hencode.symm, hwf⟩

/-- What is wrong with an encoding can only be a register field: its opcode has a row, its unused fields are 0. -/
theorem whyIllegal_encode (i : Instr) : whyIllegal (encode i) = .registerField := by
  simp only [whyIllegal, fieldOpc_encode, rows_find?_opc, encode_and_unused, beq_self_eq_true, if_true]

/-- The decoder reads no other command from an encoding than the one encoded. -/
theorem decode_encode_cases (i : Instr) :
    (i.wf = true ∧ decode (encode i) = .ok i) ∨ (i.wf = false ∧ decode (encode i) = .error .registerField) := by
  rcases decode_cases (encode i) with ⟨r, -, -, e⟩ | ⟨hmiss, e⟩
  · obtain ⟨hencode, hwf⟩ := decodedWordIsItsEncoding _ _ e
    rw [encode_injective hencode] at hwf e
    exact .inl ⟨hwf, e⟩
  · have hwf : i.wf ≠ true := fun hwf => by
      simpa [hmiss _ i.row_mem] using i.row_hits_encode_iff.mpr hwf
    exact .inr ⟨Bool.eq_false_iff.mpr hwf, e.trans (congrArg _ (whyIllegal_encode i))⟩

/-- Settles O1: the two cases of the encoding of a command. -/
theorem decodeOfEncode : Obligations.DecodeOfEncode := by
  intro i
  rcases decode_encode_cases i with ⟨hwf, e⟩ | ⟨hwf, e⟩ <;> simp [hwf, e]

/-- A worked encoding of a well-formed command holds both ways once it holds one way. -/
theorem decode_eq_of_encode_eq {i : Instr} {c : Word} (hwf : i.wf = true) (h : encode i = c) :
    encode i = c ∧ decode c = .ok i :=
  ⟨h, h ▸ (decodeOfEncode i).1 hwf⟩

/-- Settles O4: the encodings are computed, and read back by the round trip. -/
theorem workedEncodings : Obligations.WorkedEncodings := by
  refine ⟨decode_eq_of_encode_eq rfl ?_, decode_eq_of_encode_eq rfl ?_, decode_eq_of_encode_eq rfl ?_,
    decode_eq_of_encode_eq rfl ?_, decode_eq_of_encode_eq rfl ?_, decode_eq_of_encode_eq rfl ?_,
    decode_eq_of_encode_eq rfl ?_, decode_eq_of_encode_eq rfl ?_, ⟨.registerField, ?_⟩, ⟨.unusedField, ?_⟩⟩ <;> decide

/-! ### Reserved opcodes (R99) -/

/-- No command has a reserved opcode, so no word that has one decodes. -/
theorem decode_reserved {c : Word} (h : 9 ≤ c.toNat / 2 ^ 24) : ∃ e, decode c = .error e := by
  cases hd : decode c with
  | error e => exact ⟨e, rfl⟩
  | ok i =>
    obtain ⟨rfl, -⟩ := decodedWordIsItsEncoding c i hd
    rw [← fieldOpc_toNat, fieldOpc_encode] at h
    exact absurd i.opc_lt (Nat.not_lt.mpr h)

end Sys2Proof

namespace Sys2Proof.Machine

/-- Settles O5: the word decodes to no command, and the engine raises ILLEGAL. -/
theorem reservedOpcodeEndsIllegal : Obligations.ReservedOpcodeEndsIllegal := by
  intro s c lat mic rest hopc heng
  obtain ⟨e, he⟩ := decode_reserved hopc
  rw [step_engine, engineStep_illegal (s := { s with turns := rest }) heng he, raise_eq_ended]
  rfl

end Sys2Proof.Machine

/-! # Encoding family, part 3: loading a big register

The accesses of `ldbig` (R102): after word `j` the register agrees with the value below bit `32 * (j + 1)`. -/

namespace Sys2Proof.Machine

/-- Where `x` agrees with `v` below word `j`, writing `v`'s word `j` makes it agree below word `j + 1` (R66, R68). -/
theorem putWord_wordOf_mod {x v j : Nat} (h : x % 2 ^ (32 * j) = v % 2 ^ (32 * j)) :
    putWord x j (wordOf v j) % 2 ^ (32 * (j + 1)) = v % 2 ^ (32 * (j + 1)) := by
  have hword : putWord x j (wordOf v j) / 2 ^ (32 * j) % 2 ^ 32 = v / 2 ^ (32 * j) % 2 ^ 32 := by
    rw [← wordOf_toNat, wordOf_putWord_same, wordOf_toNat]
  rw [Nat.mul_succ, Nat.pow_add, Nat.mod_mul, Nat.mod_mul, hword, putWord_mod, h]

/-- The accesses of `ldbig` from word `j` on, `n` of them (R102). -/
def ldbigFrom (c : Params) (i : Fin 8) (v j n : Nat) : List Turn :=
  (List.range' j n).map fun j => w32 c (0x1000 + 0x200 * i.val + 4 * j) (wordOf v j)

theorem ldbig_eq_ldbigFrom (c : Params) (i : Fin 8) (v : Nat) : ldbig c i v = ldbigFrom c i v 0 c.words := by
  rw [ldbig, ldbigFrom, List.range_eq_range']

theorem ldbigFrom_succ (c : Params) (i : Fin 8) (v j n : Nat) :
    ldbigFrom c i v j (n + 1) =
      w32 c (0x1000 + 0x200 * i.val + 4 * j) (wordOf v j) :: ldbigFrom c i v (j + 1) n := rfl

theorem steps_succ {s t : State} (h : step s = .next t) (k : Nat) : steps (k + 1) s = steps k t := by
  rw [steps, h]

/-- The access of `ldbig` for word `j`, while idle (R66). -/
theorem step_w32_big {s : State} (hwf : s.cfg.wf = true) (hidle : s.eng = .idle) (i : Fin 8) {j : Nat}
    (hj : j < s.cfg.words) (v : Word) (rest : List Turn) :
    step { s with turns := w32 s.cfg (0x1000 + 0x200 * i.val + 4 * j) v :: rest } =
      .next { s with turns := rest, resp := some .accepted, regs := s.regs.set i (putWord s.regs[i] j v) } := by
  have hi := i.isLt
  have hwords := Params.words_le hwf
  rw [w32, step_write_slot s (by omega) (by omega) (slotAt_big hwf i hj) rfl, State.writeSlot,
    writeBig_idle (s := { s with turns := rest }) hidle]
  rfl

/-- The rest of `ldbig` from word `j` on loads `v` into a register that agrees with `v` below word `j`. -/
theorem steps_ldbigFrom {s : State} {i : Fin 8} {v j : Nat} (n : Nat) (rest : List Turn) (hwf : s.cfg.wf = true)
    (hidle : s.eng = .idle) (hv : v < 2 ^ s.cfg.opw) (hn : j + n = s.cfg.words) (hlt : s.regs[i] < 2 ^ s.cfg.opw)
    (hlow : s.regs[i] % 2 ^ (32 * j) = v % 2 ^ (32 * j)) :
    steps n { s with turns := ldbigFrom s.cfg i v j n ++ rest } =
      .next { s with
        turns := rest, resp := if n = 0 then s.resp else some .accepted, regs := s.regs.set i v } := by
  have hopw := Params.opw_eq hwf
  induction n generalizing s j with
  | zero =>
    have hbits : 32 * j = s.cfg.opw := by omega
    rw [hbits, Nat.mod_eq_of_lt hlt, Nat.mod_eq_of_lt hv] at hlow
    simp [steps, ldbigFrom, ← hlow]
  | succ n ih =>
    generalize hx : putWord s.regs[i] j (wordOf v j) = x
    have hget : (s.regs.set i x)[i] = x := Vector.getElem_set_self i.isLt
    have hxlt : x < 2 ^ s.cfg.opw := hx ▸ putWord_lt _ hlt (by omega)
    have hxlow : x % 2 ^ (32 * (j + 1)) = v % 2 ^ (32 * (j + 1)) := hx ▸ putWord_wordOf_mod hlow
    have hrest := ih (s := { s with resp := some .accepted, regs := s.regs.set i x }) (j := j + 1)
      hwf hidle hv (by rw [← hn]; omega) (by rwa [hget]) (by rwa [hget]) hopw
    rw [ldbigFrom_succ, List.cons_append, steps_succ (step_w32_big hwf hidle i (by omega) _ _), hx]
    simpa only [ite_self, Vector.set_set, Nat.add_one_ne_zero, if_false] using hrest

/-- Settles O27: the run of `ldbig` from word 0, below which there is nothing to agree on. -/
theorem ldbigLoadsTheValue : Obligations.LdbigLoadsTheValue := by
  intro s i v rest hwf hidle hlt hv
  have hwords : s.cfg.words ≠ 0 := by
    have hge := Params.opw_ge hwf
    have hopw := Params.opw_eq hwf
    omega
  have hlow : s.regs[i] % 2 ^ (32 * 0) = v % 2 ^ (32 * 0) := by simp only [Nat.mul_zero, Nat.pow_zero, Nat.mod_one]
  rw [ldbig_eq_ldbigFrom, steps_ldbigFrom _ rest hwf hidle hv (Nat.zero_add _) hlt hlow, if_neg hwords]

end Sys2Proof.Machine

/-! # Modular arithmetic family, part 1: the integer functions

R111's loop keeps `r ≡ a ^ (b >> i)` modulo `m`, where `i` bits of the exponent are still to come; the inverse of R116 is
the only one in `[0, m)`. -/

namespace Sys2Proof.Machine

/-! ### Repeated squaring (R111) -/

/-- The bits of `b` from bit `i` on are those from bit `i + 1` on, with bit `i` below them. -/
theorem bit_testBit_shiftRight_succ (b i : Nat) : Nat.bit (b.testBit i) (b >>> (i + 1)) = b >>> i := by
  simpa [Nat.testBit_shiftRight, Nat.shiftRight_add] using (b >>> i).bit_testBit_zero_shiftRight_one

/-- A turn appends bit `i` of the exponent to the power reached so far. -/
theorem modExpTurn_modEq {a b m i r : Nat} (hr : r ≡ a ^ (b >>> (i + 1)) [MOD m]) :
    modExpTurn (a % m) b m i r ≡ a ^ (b >>> i) [MOD m] := by
  have hsquare : r * r % m ≡ a ^ (2 * (b >>> (i + 1))) [MOD m] := by
    rw [two_mul, pow_add]
    exact (Nat.mod_modEq _ _).trans (hr.mul hr)
  rw [← bit_testBit_shiftRight_succ b i, modExpTurn]
  cases b.testBit i with
  | false => simpa using hsquare
  | true =>
    rw [Nat.bit_true_apply, pow_succ]
    exact (Nat.mod_modEq _ _).trans (hsquare.mul (Nat.mod_modEq _ _))

theorem modExpLoop_modEq {a b m i r : Nat} (hr : r ≡ a ^ (b >>> i) [MOD m]) :
    modExpLoop (a % m) b m i r ≡ a ^ b [MOD m] := by
  induction i generalizing r with
  | zero => exact hr
  | succ i ih => exact ih (modExpTurn_modEq hr)

theorem lt_two_pow_bitlen (v : Nat) : v < 2 ^ bitlen v := by
  unfold bitlen
  split
  · omega
  · exact Nat.lt_log2_self

/-- Repeated squaring from the top bit of the exponent gives the power (R111, with `0 ^ 0 = 1` as in R112). -/
theorem modExp_eq_pow_mod (a b : Nat) {m : Nat} (hm : 0 < m) : modExp a b m = a ^ b % m := by
  have hstart : 1 % m ≡ a ^ (b >>> bitlen b) [MOD m] := by
    rw [Nat.shiftRight_eq_zero b _ (lt_two_pow_bitlen b), pow_zero]
    exact Nat.mod_modEq _ _
  have hend : modExp a b m % m = a ^ b % m := modExpLoop_modEq hstart
  rwa [Nat.mod_eq_of_lt (modExp_lt a b hm)] at hend

/-- Settles O30, by the loop invariant `modExpLoop_modEq` and the range of the result. -/
theorem repeatedSquaringIsThePower : Obligations.RepeatedSquaringIsThePower :=
  fun a b _ hm => modExp_eq_pow_mod a b hm

/-! ### The inverse (R115, R116) -/

/-- A factor coprime to the modulus cancels, so a residue has at most one inverse in `[0, m)` (R115). -/
theorem inverse_unique {a m x y : Nat} (hg : Nat.gcd a m = 1) (hx : x < m) (hy : y < m)
    (hax : a * x % m = 1 % m) (hay : a * y % m = 1 % m) : x = y :=
  (Nat.ModEq.cancel_left_of_coprime (by rwa [Nat.gcd_comm]) (hax.trans hay.symm)).eq_of_lt_of_lt hx hy

/-- Settles O31: the loop keeps its congruences up to the gcd (`mul_modInverse_mod`), here 1, and the inverse is unique. -/
theorem extendedEuclidInverts : Obligations.ExtendedEuclidInverts := by
  intro a m hm hg
  have hinv : a * modInverse a m % m = 1 % m := hg ▸ mul_modInverse_mod a hm
  exact ⟨modInverse_lt a hm, hinv, fun x hx hax => inverse_unique hg hx (modInverse_lt a hm) hax hinv⟩

end Sys2Proof.Machine

/-! # Modular arithmetic family, part 2: the commands

MODEXP, MODINV and GCD complete in one step with the value of their function (R110, R115, R120). -/

namespace Sys2Proof.Machine

/-! ### The steps of the commands -/

theorem complete_reg_ok (s : State) (i : Fin 8) (v : Nat) :
    s.complete ((Except.ok v).map (.reg i)) = ended .ok false 0 { s with regs := s.regs.set i v } := rfl

theorem complete_reg_error (s : State) (i : Fin 8) (e : CmdError) :
    s.complete ((Except.error e).map (.reg i)) = ended e.code false e.info s := rfl

theorem exec_modexp (rd ra rb rc : RegField) (s : State) :
    exec (.modexp rd ra rb rc) s =
      .next (s.complete ((modexpValue (s.operand ra) (s.operand rb) (s.operand rc)).map (.reg (regIdx rd)))) := rfl

theorem exec_modinv (rd ra rb : RegField) (s : State) :
    exec (.modinv rd ra rb) s =
      .next (s.complete ((modinvValue (s.operand ra) (s.operand rb)).map (.reg (regIdx rd)))) := rfl

theorem exec_gcd (rd ra rb : RegField) (s : State) :
    exec (.gcd rd ra rb) s = .next (ended .ok false 0
      { s with regs := s.regs.set (regIdx rd) (Nat.gcd (s.operand ra) (s.operand rb)) }) := rfl

/-! ### The obligations -/

/-- Settles O32: the two cases of `modexpValue`. -/
theorem modexpWritesThePower : Obligations.ModexpWritesThePower := by
  intro s rd ra rb rc
  rw [exec_modexp]
  rcases modexpValue_cases (s.operand ra) (s.operand rb) (s.operand rc) with ⟨hm, hval⟩ | ⟨hm, hval⟩
  · exact ⟨fun h => absurd hm h, fun _ => by rw [hval, complete_reg_error]⟩
  · refine ⟨fun _ => ?_, fun h => absurd h hm⟩
    rw [hval, complete_reg_ok, modExp_eq_pow_mod _ _ (Nat.pos_of_ne_zero hm)]

/-- Settles O33: the three cases of `modinvValue`, with the inverse of O31. -/
theorem modinvWritesTheInverse : Obligations.ModinvWritesTheInverse := by
  intro s rd ra rb
  rw [exec_modinv]
  rcases modinvValue_cases (s.operand ra) (s.operand rb) with ⟨hm, hval⟩ | ⟨hm, hg, hval⟩ | ⟨hm, hg, hval⟩
  · exact ⟨fun h => absurd hm h, fun _ => by rw [hval, complete_reg_error], fun h => absurd hm h⟩
  · exact ⟨fun _ h => absurd h hg, fun h => absurd h hm, fun _ _ => by rw [hval, complete_reg_error, low32]⟩
  · refine ⟨fun _ _ => ?_, fun h => absurd h hm, fun _ h => absurd hg h⟩
    obtain ⟨hlt, hinv, huniq⟩ := extendedEuclidInverts _ _ (Nat.pos_of_ne_zero hm) hg
    exact ⟨_, hlt, hinv, huniq, by rw [hval, complete_reg_ok]⟩

/-- Settles O34: the value is `Nat.gcd`, the greatest common divisor. -/
theorem gcdWritesTheDivisor : Obligations.GcdWritesTheDivisor :=
  fun s rd ra rb =>
    ⟨_, exec_gcd rd ra rb s, Nat.gcd_dvd_left _ _, Nat.gcd_dvd_right _ _, fun _ => Nat.dvd_gcd⟩

end Sys2Proof.Machine

/-! # Primality family, part 1: the ceiling

ATTEMPTS under the latched ceiling (R33, R157): a command that counts counts only below its ceiling, an accept counts
from 0, and nothing else writes ATTEMPTS or the latch of a running command. -/

namespace Sys2Proof.Machine

/-! ### The commands of one step -/

theorem State.complete_eng (s : State) (x : Except CmdError Commit) : (s.complete x).eng = .idle := by
  cases x <;> rfl

/-- Every command but PRIMEGEN and KEYGEN ends in its one step (R213, R217). -/
theorem exec_eng_of_oneStep {i : Instr} {s t : State} (hi : oneStep i = true) (h : exec i s = .next t) :
    t.eng = .idle := by
  cases i with
  | primegen | keygen => cases hi
  | _ => cases h; exact State.complete_eng ..

/-! ### The operations keep the ceiling -/

/-- What the ceiling speaks of: the engine with its latch, and ATTEMPTS (R33, R38, R39). -/
structure SameCount (s t : State) : Prop where
  eng : t.eng = s.eng
  attempts : t.attempts = s.attempts

section
variable {s t : State}

/-- An idle engine is under no ceiling. -/
theorem State.CeilingKept.of_idle (h : s.eng = .idle) : s.CeilingKept := by
  intro c lat mic he
  rw [h] at he
  cases he

theorem State.CeilingKept.congr (h : s.CeilingKept) (hst : SameCount s t) : t.CeilingKept := by
  unfold State.CeilingKept
  rwa [hst.eng, hst.attempts]

/-- An accepted command that counts has counted nothing yet (R211). -/
theorem State.CeilingKept.accept (s : State) (c : Word) : (s.accept c).CeilingKept := by
  intro c' lat mic he hcounts _
  cases he
  rw [State.accept_attempts, Bool.or_comm, if_pos hcounts]
  exact BitVec.le_def.mpr (Nat.zero_le _)

/-- The microstate is no part of it. -/
theorem State.CeilingKept.setMic (h : s.CeilingKept) (m : Mic) : (s.setMic m).CeilingKept := by
  cases he : s.eng with
  | idle => exact .of_idle ((s.setMic_eng_idle_iff m).mpr he)
  | busy c lat mic =>
    rw [State.setMic_of_eng he]
    intro c' lat' mic' he'
    cases he'
    exact h c lat mic he

/-! ### The commands keep it -/

/-- An attempt counts its candidate only below the ceiling (R157). -/
theorem State.CeilingKept.attempt (h : s.CeilingKept) {len : Nat} {r : Except CmdError (Option Nat)}
    (ha : attempt len s = (r, t)) : t.CeilingKept := by
  have counted : ∀ g, s.lat.rmax = 0 ∨ s.attempts < s.lat.rmax →
      State.CeilingKept { s with rng := g, attempts := satInc s.attempts } := by
    intro g hbelow c lat mic he _ hrmax
    rw [State.lat_of_eng (s := s) he] at hbelow
    exact satInc_le (hbelow.resolve_left hrmax)
  rcases attempt_cases len s with
    ⟨-, -, e⟩ | ⟨hbelow, ⟨-, -, e⟩ | ⟨c, g, -, ⟨g', -, e⟩ | ⟨g', -, e⟩ | ⟨err, g', -, e⟩⟩⟩ <;> (rw [e] at ha; cases ha)
  · exact h
  · exact h
  · exact counted g' hbelow
  · exact counted g' hbelow
  · exact counted g' hbelow

theorem State.CeilingKept.execPrimegen (h : s.CeilingKept) {rd : RegField} {imm : BitVec 16}
    (he : execPrimegen rd imm s = .next t) : t.CeilingKept := by
  rcases execPrimegen_cases rd imm s with ⟨-, e⟩ | ⟨-, -, ⟨err, s', -, e⟩ | ⟨s', ha, e⟩ | ⟨c, s', -, e⟩⟩ <;>
    (rw [e] at he; cases he)
  · exact .of_idle rfl
  · exact .of_idle rfl
  · exact h.attempt ha
  · exact .of_idle rfl

theorem State.CeilingKept.keygenFound (h : s.CeilingKept) (c : Nat) : (keygenFound c s).CeilingKept := by
  unfold Machine.keygenFound
  split
  · split
    · exact .of_idle (State.complete_eng ..)
    · exact (h.congr ⟨rfl, rfl⟩ : State.CeilingKept { s with restarts := satInc s.restarts }).setMic .genP
  · exact h.setMic _

theorem State.CeilingKept.execKeygen (h : s.CeilingKept) {imm : BitVec 16} (he : execKeygen imm s = .next t) :
    t.CeilingKept := by
  rcases execKeygen_cases imm s with ⟨-, e⟩ | ⟨-, -, ⟨err, s', -, e⟩ | ⟨s', ha, e⟩ | ⟨c, s', ha, e⟩⟩ <;>
    (rw [e] at he; cases he)
  · exact .of_idle rfl
  · exact .of_idle rfl
  · exact h.attempt ha
  · exact (h.attempt ha).keygenFound c

theorem State.CeilingKept.exec (h : s.CeilingKept) {i : Instr} (he : exec i s = .next t) : t.CeilingKept := by
  cases i with
  | primegen rd imm => exact h.execPrimegen he
  | keygen imm => exact h.execKeygen he
  | _ => exact .of_idle (exec_eng_of_oneStep rfl he)

theorem State.CeilingKept.engineStep (h : s.CeilingKept) (he : engineStep s = .next t) : t.CeilingKept := by
  rcases engineStep_cases s with ⟨-, e⟩ | ⟨_, _, _, i, -, -, e⟩ | ⟨_, _, _, _, -, -, e⟩ <;> rw [e] at he
  · cases he
    exact h
  · exact h.exec he
  · cases he
    exact .of_idle rfl

/-! ### A host's writes keep it -/

theorem State.CeilingKept.writeCmd (h : s.CeilingKept) (c : Word) : (s.writeCmd c).CeilingKept := by
  unfold State.writeCmd
  split
  · exact h.congr ⟨rfl, rfl⟩
  · exact .accept s c

end

/-- Only a write of `CMD` reaches the engine or ATTEMPTS. -/
theorem writeSlot_sameCount (s : State) (v : Word) {sl : Slot} (h : sl ≠ .cmd) : SameCount s (s.writeSlot v sl) := by
  cases sl with
  | cmd => exact absurd rfl h
  | ctrl =>
    unfold State.writeSlot State.writeCtrl
    dsimp only
    repeat' split
    all_goals exact ⟨rfl, rfl⟩
  | rngData =>
    simp only [State.writeSlot, State.writeRngData]
    repeat' split
    all_goals exact ⟨rfl, rfl⟩
  | big i j =>
    simp only [State.writeSlot, State.writeBig]
    split <;> exact ⟨rfl, rfl⟩
  | _ => exact ⟨rfl, rfl⟩

theorem State.CeilingKept.access {s : State} (h : s.CeilingKept) (off : Nat) (a : Access) :
    (s.access off a).CeilingKept := by
  obtain ⟨r, e | ⟨sl, v, -, -, -, e⟩⟩ := access_cases s off a <;> rw [e]
  · exact h.congr ⟨rfl, rfl⟩
  · have hwrite : (s.writeSlot v sl).CeilingKept := by
      by_cases hcmd : sl = .cmd
      · rw [hcmd]
        exact h.writeCmd v
      · exact h.congr (writeSlot_sameCount s v hcmd)
    exact hwrite.congr ⟨rfl, rfl⟩

/-- Settles O45: the engine's step, a host's access and reset each keep the ceiling. -/
theorem everyStepKeepsTheCeiling : Obligations.EveryStepKeepsTheCeiling := by
  intro s t h he
  have hrest : ∀ rest, State.CeilingKept { s with turns := rest } := fun _ => h.congr ⟨rfl, rfl⟩
  rcases step_cases s with ⟨-, e⟩ | ⟨rest, -, e⟩ | ⟨a, rest, -, e⟩ | ⟨rest, -, e⟩ <;> rw [e] at he
  · exact h.engineStep he
  · exact (hrest rest).engineStep he
  · rcases hostStep_cases a { s with turns := rest } with ⟨off, -, -, e'⟩ | ⟨-, e'⟩ <;> (rw [e'] at he; cases he)
    exact (hrest rest).access off a
  · cases he
    exact .of_idle rfl

end Sys2Proof.Machine

/-! # Primality family, part 2: the draws

The bytes of a draw, most significant first (R143), and the range of a base (R144, R145). -/

namespace Sys2Proof.Machine

theorem bigEndian_append (xs ys : List Byte) :
    bigEndian (xs ++ ys) = bigEndian xs * 256 ^ ys.length + bigEndian ys := by
  induction ys using List.reverseRecOn with
  | nil => simp [bigEndian]
  | append_singleton ys y ih =>
    rw [← List.append_assoc, bigEndian_append_singleton, ih, bigEndian_append_singleton, List.length_append,
      List.length_singleton, pow_succ]
    ring

/-- A byte with `post` after it is the digit of its place in base 256. -/
theorem bigEndian_digit (pre post : List Byte) (b : Byte) :
    bigEndian (pre ++ b :: post) / 256 ^ post.length % 256 = b.toNat := by
  rw [List.append_cons, bigEndian_append, bigEndian_append_singleton, Nat.mul_comm _ (256 ^ post.length),
    Nat.mul_add_div (by positivity), Nat.div_eq_of_lt (bigEndian_lt post), Nat.add_zero, Nat.mul_add_mod_self_right,
    Nat.mod_eq_of_lt b.isLt]

/-- Byte `i` from the front of a value's bytes (R143). -/
theorem bigEndian_getElem? {bs : List Byte} {i : Nat} {b : Byte} (h : bs[i]? = some b) :
    bigEndian bs / 256 ^ (bs.length - 1 - i) % 256 = b.toNat := by
  obtain ⟨hi, rfl⟩ := List.getElem?_eq_some_iff.mp h
  have hsplit : bs.take i ++ bs[i] :: bs.drop (i + 1) = bs := by
    rw [List.getElem_cons_drop, List.take_append_drop]
  have hplace : bs.length - 1 - i = (bs.drop (i + 1)).length := by
    rw [List.length_drop]
    omega
  have hdigit := bigEndian_digit (bs.take i) (bs.drop (i + 1)) bs[i]
  rwa [hsplit, ← hplace] at hdigit

/-- Settles O35: the TRNG's value is reduced into its range, the host FIFO's bytes are digits in base 256. -/
theorem bytesAreDrawnBigEndian : Obligations.BytesAreDrawnBigEndian := by
  intro len g
  refine ⟨fun _ _ _ => drawBytes_lt, ⟨_, _, rfl, rfl⟩, drawBytesFifo_short, fun taken left hqueue hlen => ?_⟩
  have henough : len ≤ g.queue.length := by
    rw [hqueue, List.length_append]
    omega
  refine ⟨bigEndian taken, ?_, fun i b hb => hlen ▸ bigEndian_getElem? hb⟩
  rw [drawBytes, drawBytesFifo_enough henough, hqueue, List.take_left' hlen, List.drop_left' hlen]

/-- A base made of a residue modulo `n - 3` (R144, R145). -/
theorem base_inRange {n : Nat} (hn : 5 ≤ n) (v : Nat) : 2 ≤ 2 + v % (n - 3) ∧ 2 + v % (n - 3) ≤ n - 2 := by
  have hlt : v % (n - 3) < n - 3 := Nat.mod_lt v (Nat.sub_pos_of_lt (Nat.lt_of_lt_of_le (by decide) hn))
  generalize v % (n - 3) = w at hlt ⊢
  omega

/-- Settles O36: either source's base is 2 plus a residue modulo `n - 3`. -/
theorem drawnBaseIsInRange : Obligations.DrawnBaseIsInRange := by
  intro src n a g g' _ hn h
  rcases drawBase_cases src n g with ⟨-, e⟩ | ⟨-, -, e⟩ | ⟨-, -, e⟩ <;> (rw [e] at h; cases h)
  · exact base_inRange hn _
  · exact base_inRange hn _

end Sys2Proof.Machine

/-! # Primality family, part 3: one round of the test

The loops of a round compute the strong-pseudoprime condition (R151), which a prime meets for every base (R154). -/

namespace Sys2Proof.Machine

/-! ### The odd part of `n - 1` (R151, step 2) -/

/-- With fuel for every halving, the loop leaves an odd number and has kept the product. -/
theorem oddPartLoop_spec {fuel d : Nat} (s : Nat) (hd : 0 < d) (hfuel : d < 2 ^ fuel) :
    (oddPartLoop fuel d s).1 % 2 = 1 ∧ d * 2 ^ s = (oddPartLoop fuel d s).1 * 2 ^ (oddPartLoop fuel d s).2 := by
  induction fuel generalizing d s with
  | zero => exact absurd hfuel (Nat.not_lt.mpr hd)
  | succ fuel ih =>
    rw [oddPartLoop]
    split
    · next heven =>
      have hdvd : 2 ∣ d := Nat.dvd_of_mod_eq_zero heven
      have hhalf : d / 2 < 2 ^ fuel := Nat.div_lt_of_lt_mul (by rwa [← pow_succ'])
      obtain ⟨hodd, hprod⟩ := ih (s + 1) (Nat.div_pos (Nat.le_of_dvd hd hdvd) two_pos) hhalf
      refine ⟨hodd, ?_⟩
      rw [← hprod, pow_succ', ← Nat.mul_assoc, Nat.div_mul_cancel hdvd]
    · next hodd => exact ⟨Nat.mod_two_ne_zero.mp hodd, rfl⟩

/-- The odd part of `n - 1` and its power of two (R151). -/
theorem oddPart_spec {n : Nat} (hn : 1 < n) :
    (oddPart n).1 % 2 = 1 ∧ n - 1 = (oddPart n).1 * 2 ^ (oddPart n).2 := by
  have hspec := oddPartLoop_spec 0 (Nat.sub_pos_of_lt hn) ((Nat.sub_le n 1).trans_lt (lt_two_pow_bitlen n))
  rwa [pow_zero, Nat.mul_one] at hspec

/-- An odd number has no factor of two. -/
theorem eq_zero_of_odd_eq_mul_two_pow {d d' k : Nat} (hd : d % 2 = 1) (h : d = d' * 2 ^ k) : k = 0 := by
  cases k with
  | zero => rfl
  | succ k =>
    rw [pow_succ, ← Nat.mul_assoc] at h
    omega

/-- A number is an odd number times a power of two in one way only. -/
theorem odd_mul_two_pow_inj {d e d' e' : Nat} (hd : d % 2 = 1) (hd' : d' % 2 = 1) (h : d * 2 ^ e = d' * 2 ^ e') :
    d = d' ∧ e = e' := by
  wlog hle : e ≤ e' generalizing d e d' e'
  · obtain ⟨h₁, h₂⟩ := this hd' hd h.symm (by omega)
    exact ⟨h₁.symm, h₂.symm⟩
  obtain ⟨k, rfl⟩ := Nat.exists_eq_add_of_le hle
  rw [pow_add, Nat.mul_left_comm, Nat.mul_comm] at h
  have hcancel := Nat.eq_of_mul_eq_mul_left (by positivity) h
  obtain rfl := eq_zero_of_odd_eq_mul_two_pow hd hcancel
  simpa using hcancel

/-- The condition of a round, for the decomposition of `n - 1` at hand. -/
theorem passesRound_iff {n a d e : Nat} (hd : d % 2 = 1) (hn : n - 1 = d * 2 ^ e) :
    PassesRound n a ↔ a ^ d % n = 1 ∨ ∃ r, r < e ∧ a ^ (d * 2 ^ r) % n = n - 1 := by
  refine ⟨?_, fun h => ⟨d, e, hd, hn, h⟩⟩
  rintro ⟨d', e', hd', hn', h⟩
  obtain ⟨rfl, rfl⟩ := odd_mul_two_pow_inj hd hd' (hn.symm.trans hn')
  exact h

/-! ### The squarings (R151) -/

/-- The squarings look for `n - 1` among the next `j` squares of `x`. -/
theorem squarings_iff (n j x : Nat) : squarings n j x = true ↔ ∃ r, r < j ∧ x ^ 2 ^ (r + 1) % n = n - 1 := by
  induction j generalizing x with
  | zero => simp [squarings]
  | succ j ih =>
    have hsquare : ∀ r, (x * x % n) ^ 2 ^ r % n = x ^ 2 ^ (r + 1) % n := by
      intro r
      rw [← Nat.pow_mod, ← sq, ← pow_mul, ← pow_succ']
    rw [squarings, Nat.exists_lt_succ_left, ← hsquare 0, pow_zero, pow_one, Nat.mod_mod]
    simp only [← hsquare (_ + 1), ← ih]
    split
    · next hreached => exact iff_of_true rfl (.inl hreached)
    · next hnot => exact (or_iff_right hnot).symm

/-- A round of the model, whatever `d` and `s >= 1` it is given, in powers of the base (R151). -/
theorem roundPasses_iff {n d s a : Nat} (hn : 0 < n) (hs : 0 < s) :
    roundPasses n d s a = true ↔ a ^ d % n = 1 ∨ ∃ r, r < s ∧ a ^ (d * 2 ^ r) % n = n - 1 := by
  obtain ⟨s, rfl⟩ := Nat.exists_eq_add_one_of_ne_zero hs.ne'
  have hpow : ∀ r, (a ^ d % n) ^ 2 ^ r % n = a ^ (d * 2 ^ r) % n := by
    intro r
    rw [← Nat.pow_mod, ← pow_mul]
  rw [roundPasses, modExp_eq_pow_mod a d hn, Nat.exists_lt_succ_left, ← hpow 0, pow_zero, pow_one, Nat.mod_mod]
  simp only [Bool.or_eq_true, beq_iff_eq, squarings_iff, hpow, Nat.add_sub_cancel, or_assoc]

/-- Settles O37: the loops of the round against the one decomposition of `n - 1`. -/
theorem roundIsTheStrongTest : Obligations.RoundIsTheStrongTest := by
  intro n a hodd hn
  obtain ⟨hd, hprod⟩ := oddPart_spec (Nat.lt_of_lt_of_le (by decide) hn)
  have hs : 0 < (oddPart n).2 := by
    rw [Nat.pos_iff_ne_zero]
    intro h0
    rw [h0, pow_zero, Nat.mul_one] at hprod
    generalize (oddPart n).1 = d at hd hprod
    omega
  rw [roundPasses_iff (Nat.zero_lt_of_lt hn) hs, passesRound_iff hd hprod]

/-! ### Primes (R154) -/

/-- Where only 1 and -1 square to 1, a number whose `2^e`-th power is 1 is 1 or reaches -1 before. -/
theorem eq_one_or_reaches_neg_one {R : Type} [Ring R] [NoZeroDivisors R] {x : R} {e : Nat} (h : x ^ 2 ^ e = 1) :
    x = 1 ∨ ∃ r, r < e ∧ x ^ 2 ^ r = -1 := by
  induction e with
  | zero => exact .inl (by simpa using h)
  | succ e ih =>
    rw [pow_succ, pow_mul] at h
    rcases sq_eq_one_iff.mp h with hone | hneg
    · exact (ih hone).imp_right fun ⟨r, hr, hx⟩ => ⟨r, by omega, hx⟩
    · exact .inr ⟨e, by omega, hneg⟩

/-- A power known modulo `n`, as a remainder. -/
theorem pow_mod_of_natCast_pow {n a k r : Nat} (hr : r < n) (h : (a : ZMod n) ^ k = (r : ZMod n)) : a ^ k % n = r := by
  rw [← Nat.cast_pow, ZMod.natCast_eq_natCast_iff'] at h
  rw [h, Nat.mod_eq_of_lt hr]

/-- A prime passes a round for every base it does not divide: Fermat, and the square roots of 1 modulo a prime. -/
theorem passesRound_of_prime {n a : Nat} (hp : Nat.Prime n) (ha : ¬ n ∣ a) : PassesRound n a := by
  have : Fact n.Prime := ⟨hp⟩
  obtain ⟨hd, hprod⟩ := oddPart_spec hp.one_lt
  have hfermat : ((a : ZMod n) ^ (oddPart n).1) ^ 2 ^ (oddPart n).2 = 1 := by
    rw [← pow_mul, ← hprod]
    exact ZMod.pow_card_sub_one_eq_one (mt (ZMod.natCast_eq_zero_iff a n).mp ha)
  have hneg : ((n - 1 : Nat) : ZMod n) = -1 := by
    rw [Nat.cast_pred hp.pos, ZMod.natCast_self, zero_sub]
  rw [passesRound_iff hd hprod]
  refine (eq_one_or_reaches_neg_one hfermat).imp (fun h => ?_) fun ⟨r, hr, h⟩ => ⟨r, hr, ?_⟩
  · exact pow_mod_of_natCast_pow hp.one_lt (h.trans Nat.cast_one.symm)
  · exact pow_mod_of_natCast_pow (Nat.sub_lt hp.pos one_pos) ((pow_mul ..).trans (h.trans hneg.symm))

end Sys2Proof.Machine

/-! # Primality family, part 4: MRTEST

The test round by round: what its first rounds draw when they pass, and how the next one ends it (R144, R145, R151). -/

namespace Sys2Proof.Machine

/-! ### The commands' step, by the outcome of the test -/

theorem millerRabin_even {src : RngSrc} {n k : Nat} {g : Rng} (h : n % 2 = 0) :
    millerRabin src n k g = (.ok false, g) := by
  rw [millerRabin, if_pos h]

theorem millerRabin_domain {src : RngSrc} {n k : Nat} {g : Rng} (hodd : n % 2 = 1) (hn : n < 5) :
    millerRabin src n k g = (.error ⟨.domain, low32 n⟩, g) := by
  rw [millerRabin, if_neg (by omega), if_pos hn]

theorem millerRabin_rounds {src : RngSrc} {n k : Nat} {g : Rng} (hodd : n % 2 = 1) (hn : 5 ≤ n) :
    millerRabin src n k g = rounds src n (oddPart n).1 (oddPart n).2 k g := by
  rw [millerRabin, if_neg (by omega), if_neg (by omega)]

theorem exec_mrtest_ok {s : State} {ra : RegField} {b : Bool} {g : Rng}
    (h : millerRabin s.lat.src (s.operand ra) s.lat.k.toNat s.rng = (.ok b, g)) :
    exec (.mrtest ra) s = .next (ended .ok b 0 { s with rng := g }) := by
  rw [exec, execMrtest, h]
  rfl

theorem exec_mrtest_error {s : State} {ra : RegField} {e : CmdError} {g : Rng}
    (h : millerRabin s.lat.src (s.operand ra) s.lat.k.toNat s.rng = (.error e, g)) :
    exec (.mrtest ra) s = .next (ended e.code false e.info { s with rng := g }) := by
  rw [exec, execMrtest, h]
  rfl

/-- Settles O38: each case is decided before a draw. -/
theorem mrtestWithoutDraws : Obligations.MrtestWithoutDraws := by
  have domain : ∀ (src : RngSrc) (n k : Nat) (g : Rng), n = 1 ∨ n = 3 →
      millerRabin src n k g = (.error ⟨.domain, BitVec.ofNat 32 n⟩, g) :=
    fun _ _ _ _ h => millerRabin_domain (by omega) (by omega)
  have noRound : ∀ (src : RngSrc) (n k : Nat) (g : Rng), n % 2 = 1 → 5 ≤ n → k = 0 →
      millerRabin src n k g = (.ok true, g) := by
    rintro src n k g hodd hn rfl
    rw [millerRabin_rounds hodd hn, rounds]
  refine ⟨fun src n k g => ⟨millerRabin_even, domain src n k g, noRound src n k g⟩, fun s ra => ⟨?_, ?_, ?_⟩⟩
  · exact fun h => exec_mrtest_ok (millerRabin_even h)
  · exact fun h => exec_mrtest_error (domain _ _ _ _ h)
  · exact fun hodd hn hk => exec_mrtest_ok (noRound _ _ _ _ hodd hn (by rw [hk]; rfl))

/-! ### Rounds -/

/-- A round of the test of `n` that draws the base `a`, leaving the sources `g'`, and passes (R144, R145, R151). -/
structure RoundPassed (src : RngSrc) (n a : Nat) (g g' : Rng) : Prop where
  draw : drawBase src n g = (.ok a, g')
  pass : PassesRound n a

section
variable {src : RngSrc} {n k a : Nat} {g g' : Rng}

theorem rounds_succ_of_error {d s : Nat} {e : CmdError} (hdraw : drawBase src n g = (.error e, g')) :
    rounds src n d s (k + 1) g = (.error e, g') := by
  rw [rounds, hdraw]

variable (hodd : n % 2 = 1) (hn : 5 ≤ n)
include hodd hn

theorem rounds_succ_of_pass (h : RoundPassed src n a g g') :
    rounds src n (oddPart n).1 (oddPart n).2 (k + 1) g = rounds src n (oddPart n).1 (oddPart n).2 k g' := by
  rw [rounds, h.draw]
  exact if_pos ((roundIsTheStrongTest n a hodd hn).mpr h.pass)

theorem rounds_succ_of_fail (hdraw : drawBase src n g = (.ok a, g')) (h : ¬ PassesRound n a) :
    rounds src n (oddPart n).1 (oddPart n).2 (k + 1) g = (.ok false, g') := by
  rw [rounds, hdraw]
  exact if_neg (mt (roundIsTheStrongTest n a hodd hn).mp h)

/-- `j` rounds that pass, through the sources `gs 0` to `gs j`, leave the test to the rounds after them. -/
theorem millerRabin_add_of_pass {base : Nat → Nat} {gs : Nat → Rng} {j : Nat}
    (h : ∀ i, i < j → RoundPassed src n (base i) (gs i) (gs (i + 1))) (m : Nat) :
    millerRabin src n (j + m) (gs 0) = rounds src n (oddPart n).1 (oddPart n).2 m (gs j) := by
  induction j generalizing m with
  | zero => rw [Nat.zero_add, millerRabin_rounds hodd hn]
  | succ j ih =>
    rw [Nat.add_assoc, Nat.add_comm 1 m, ih (fun i hi => h i (Nat.lt_succ_of_lt hi)),
      rounds_succ_of_pass hodd hn (h j (Nat.lt_succ_self j))]

end

/-! ### The host FIFO (R145, R146) -/

/-- The source `g` after `i` draws of a base for `n` from the host FIFO: `i * ByteLen(n)` bytes are gone. -/
def fifoAfter (n : Nat) (g : Rng) (i : Nat) : Rng := { g with queue := g.queue.drop (i * byteLen n) }

theorem fifoAfter_zero (n : Nat) (g : Rng) : fifoAfter n g 0 = g := by simp [fifoAfter]

theorem drawBase_fifoAfter {n i : Nat} {g : Rng} (h : (i + 1) * byteLen n ≤ g.queue.length) :
    drawBase .fifo n (fifoAfter n g i) = (.ok (fifoBase n g.queue i), fifoAfter n g (i + 1)) := by
  have henough : byteLen n ≤ (fifoAfter n g i).queue.length := by
    rw [fifoAfter, List.length_drop]
    rw [Nat.succ_mul] at h
    omega
  rw [drawBase, drawBytesFifo_enough henough]
  simp only [fifoBase, fifoAfter, List.drop_drop, Nat.succ_mul]

theorem drawBase_fifoAfter_short {n i : Nat} {g : Rng} (h : g.queue.length < (i + 1) * byteLen n)
    (hi : i * byteLen n ≤ g.queue.length) :
    drawBase .fifo n (fifoAfter n g i) = (.error (rngEmpty (byteLen n)), fifoAfter n g i) := by
  have hshort : (fifoAfter n g i).queue.length < byteLen n := by
    rw [fifoAfter, List.length_drop]
    rw [Nat.succ_mul] at h
    omega
  rw [drawBase, drawBytesFifo_short hshort]

/-- Settles O39: the `j` rounds before, then none, one that fails, or one that lacks its bytes. -/
theorem mrtestWithHostFifo : Obligations.MrtestWithHostFifo := by
  rintro s ra n B j hop rfl hodd hn hsrc hpass
  have hrounds := millerRabin_add_of_pass (src := .fifo) (gs := fifoAfter n s.rng) hodd hn
    fun i hi => ⟨drawBase_fifoAfter (hpass i hi).1, (hpass i hi).2⟩
  rw [fifoAfter_zero] at hrounds
  refine ⟨fun hk => ?_, fun hk henough hfail => ?_, fun hk hshort => ?_⟩
  · apply exec_mrtest_ok
    rw [hsrc, ← hop, ← hk, ← Nat.add_zero j, hrounds 0]
    rfl
  · obtain ⟨m, hm⟩ := Nat.exists_eq_add_of_lt hk
    apply exec_mrtest_ok
    rw [hsrc, ← hop, hm, Nat.add_assoc, hrounds, rounds_succ_of_fail hodd hn (drawBase_fifoAfter henough) hfail]
    rfl
  · obtain ⟨m, hm⟩ := Nat.exists_eq_add_of_lt hk
    have hbefore : j * byteLen n ≤ s.rng.queue.length := by
      cases j with
      | zero => simp
      | succ j => exact (hpass j (Nat.lt_succ_self j)).1
    refine exec_mrtest_error (e := rngEmpty (byteLen n)) ?_
    rw [hsrc, ← hop, hm, Nat.add_assoc, hrounds, rounds_succ_of_error (drawBase_fifoAfter_short hshort hbefore)]
    rfl

/-! ### The TRNG (R144) -/

/-- The source `g` after `i` draws from the TRNG (notes/assumptions/2.md). -/
def trngAfter (g : Rng) (i : Nat) : Rng := { g with draws := g.draws + i }

theorem drawBase_trngAfter (n i : Nat) (g : Rng) :
    drawBase .trng n (trngAfter g i) = (.ok (trngBase n g.draws i), trngAfter g (i + 1)) := rfl

/-- Settles O40: the `j` rounds before, then none or one that fails. -/
theorem mrtestWithTrng : Obligations.MrtestWithTrng := by
  intro s ra n j hop hodd hn hsrc hpass
  have hrounds := millerRabin_add_of_pass (gs := trngAfter s.rng) hodd hn
    fun i hi => ⟨drawBase_trngAfter n i s.rng, hpass i hi⟩
  refine ⟨fun hk => ?_, fun hk hfail => ?_⟩
  · apply exec_mrtest_ok
    rw [hsrc, ← hop, ← hk]
    exact hrounds 0
  · obtain ⟨m, hm⟩ := Nat.exists_eq_add_of_lt hk
    apply exec_mrtest_ok
    rw [hsrc, ← hop, hm]
    exact (hrounds (m + 1)).trans (rounds_succ_of_fail hodd hn (drawBase_trngAfter n j s.rng) hfail)

/-! ### Primes (R154) -/

/-- A prime passes for every base the sources can draw. -/
theorem prime_passes_drawn {n : Nat} (hp : Nat.Prime n) (hn : 5 ≤ n) (v : Nat) : PassesRound n (2 + v % (n - 3)) := by
  obtain ⟨htwo, hlt⟩ := base_inRange hn v
  exact passesRound_of_prime hp (Nat.not_dvd_of_pos_of_lt (by omega) (by omega))

/-- Settles O41: every round of O39 and of O40 passes, and no draw of the FIFO is short. -/
theorem primesAlwaysPass : Obligations.PrimesAlwaysPass := by
  intro s ra hp hn hsource
  have hodd := hp.eq_two_or_odd.resolve_left (by omega)
  cases hsrc : s.lat.src with
  | trng => exact ⟨_, (mrtestWithTrng s ra _ _ rfl hodd hn hsrc fun i _ => prime_passes_drawn hp hn _).1 rfl⟩
  | fifo =>
    have hbytes := hsource.resolve_left (by simp [hsrc])
    exact ⟨_, (mrtestWithHostFifo s ra _ _ _ rfl rfl hodd hn hsrc fun i hi =>
      ⟨(Nat.mul_le_mul_right _ hi).trans hbytes, prime_passes_drawn hp hn _⟩).1 rfl⟩

end Sys2Proof.Machine

/-! # Primality family, part 5: the attempts of PRIMEGEN and KEYGEN

One attempt from its conditions (R157), and the run of PRIMEGEN in host-FIFO mode, where each attempt takes bytes
(R160). -/

namespace Sys2Proof.Machine

/-! ### An attempt, by what it meets -/

section
variable {len : Nat} {s : State}

theorem attempt_exhausted (hrmax : s.lat.rmax ≠ 0) (h : s.lat.rmax ≤ s.attempts) :
    attempt len s = (.error ⟨.exhausted, s.attempts⟩, s) := by
  rw [attempt, if_pos ⟨hrmax, h⟩]

theorem not_ceiling_reached (h : s.lat.rmax = 0 ∨ s.attempts < s.lat.rmax) :
    ¬ (s.lat.rmax ≠ 0 ∧ s.lat.rmax ≤ s.attempts) :=
  fun ⟨hrmax, hle⟩ => BitVec.not_le.mpr (h.resolve_left hrmax) hle

theorem attempt_short (hbelow : s.lat.rmax = 0 ∨ s.attempts < s.lat.rmax) (hsrc : s.lat.src = .fifo)
    (h : s.rng.queue.length < len) : attempt len s = (.error (rngEmpty len), s) := by
  rw [attempt, if_neg (not_ceiling_reached hbelow), hsrc, drawBytes, drawBytesFifo_short h]

/-- A candidate drawn is counted and tested. -/
theorem attempt_drawn {c : Nat} {g g' : Rng} {r : Except CmdError Bool}
    (hbelow : s.lat.rmax = 0 ∨ s.attempts < s.lat.rmax) (hdraw : drawBytes s.lat.src len s.rng = (.ok c, g))
    (htest : millerRabin s.lat.src c s.lat.k.toNat g = (r, g')) :
    attempt len s =
      (r.map fun b => if b then some c else none, { s with rng := g', attempts := satInc s.attempts }) := by
  rw [attempt, if_neg (not_ceiling_reached hbelow), hdraw]
  simp only [htest]

end

/-! ### What an attempt tells -/

/-- The errors of an attempt: the test's, and the two of its own (R157). -/
theorem attempt_error_code {len : Nat} {s s' : State} {e : CmdError} (h : attempt len s = (.error e, s')) :
    e.code ∈ [ErrCode.domain, .exhausted, .rngempty] := by
  rcases attempt_cases len s with
    ⟨-, -, e⟩ | ⟨-, ⟨-, -, e⟩ | ⟨c, g, -, ⟨g', -, e⟩ | ⟨g', -, e⟩ | ⟨err, g', htest, e⟩⟩⟩ <;> (rw [e] at h; cases h)
  · simp
  · simp [rngEmpty]
  · rcases millerRabin_error htest with hcode | hcode <;> simp [hcode]

/-- An attempt without error has drawn a candidate and tested it. -/
theorem attempt_ok {len : Nat} {s s' : State} {o : Option Nat} (h : attempt len s = (.ok o, s')) :
    ∃ c g b, drawBytes s.lat.src len s.rng = (.ok c, g) ∧
      millerRabin s.lat.src c s.lat.k.toNat g = (.ok b, s'.rng) ∧ o = if b then some c else none := by
  rcases attempt_cases len s with
    ⟨-, -, e⟩ | ⟨-, ⟨-, -, e⟩ | ⟨c, g, hdraw, ⟨g', htest, e⟩ | ⟨g', htest, e⟩ | ⟨err, g', -, e⟩⟩⟩ <;>
    (rw [e] at h; cases h)
  · exact ⟨c, g, true, hdraw, htest, rfl⟩
  · exact ⟨c, g, false, hdraw, htest, rfl⟩

/-- In host-FIFO mode "each attempt removes at least `len` bytes" (R160, R177), or ends the command. -/
theorem attempt_removes {len : Nat} {s s' : State} {o : Option Nat} (hsrc : s.lat.src = .fifo)
    (h : attempt len s = (.ok o, s')) : s'.rng.queue.length + len ≤ s.rng.queue.length := by
  obtain ⟨c, g, b, hdraw, htest, -⟩ := attempt_ok h
  have hle : s'.rng.queue.length ≤ g.queue.length := by
    simpa [htest] using (millerRabin_after s.lat.src c s.lat.k.toNat g).length_le
  rcases drawBytes_cases s.lat.src len s.rng with ⟨hne, -⟩ | ⟨-, -, e⟩ | ⟨-, henough, e⟩
  · rw [hsrc] at hne
    cases hne
  · rw [e] at hdraw
    cases hdraw
  · rw [e] at hdraw
    cases hdraw
    rw [List.length_drop] at hle
    omega

/-- A length that is not refused (R156, R172). -/
theorem length_legal {len bits opw : Nat} (hlen : len ≠ 0) (hopw : bits ≤ opw) : ¬ (len = 0 ∨ opw < bits) :=
  not_or.mpr ⟨hlen, Nat.not_lt.mpr hopw⟩

/-! ### PRIMEGEN -/

/-- Settles O42: the length check comes before the attempt. -/
theorem primegenRefusesTheLength : Obligations.PrimegenRefusesTheLength := by
  intro s rd imm h
  rw [exec, execPrimegen, immValue, if_pos h]
  rfl

section
variable {s s' : State} {rd : RegField} {imm : BitVec 16} (hlen : imm.toNat ≠ 0) (hopw : 8 * imm.toNat ≤ s.cfg.opw)
include hlen hopw

/-- With a legal length a step of PRIMEGEN is what its attempt leads to (R156). -/
theorem exec_primegen_error {e : CmdError} (ha : attempt imm.toNat s = (.error e, s')) :
    exec (.primegen rd imm) s = .next (ended e.code false e.info s') := by
  rw [exec, execPrimegen, immValue, if_neg (length_legal hlen hopw), ha]
  rfl

theorem exec_primegen_again (ha : attempt imm.toNat s = (.ok none, s')) : exec (.primegen rd imm) s = .next s' := by
  rw [exec, execPrimegen, immValue, if_neg (length_legal hlen hopw), ha]

theorem exec_primegen_found {c : Nat} (ha : attempt imm.toNat s = (.ok (some c), s')) :
    exec (.primegen rd imm) s = .next (ended .ok false 0 (s'.setReg (regIdx rd) c)) := by
  rw [exec, execPrimegen, immValue, if_neg (length_legal hlen hopw), ha]
  rfl

end

/-- Settles O43: the attempt in each case, and what PRIMEGEN does with it. -/
theorem primegenMakesOneAttempt : Obligations.PrimegenMakesOneAttempt := by
  intro s rd imm hlen hopw
  refine ⟨fun hrmax hle => exec_primegen_error hlen hopw (attempt_exhausted hrmax hle), fun hbelow =>
    ⟨fun hsrc hshort => ?_, fun c g hdraw => ⟨fun g' htest => ?_, fun g' htest => ?_, fun e g' htest => ?_⟩⟩⟩
  · rw [exec_primegen_error hlen hopw (attempt_short hbelow hsrc hshort), rngEmpty, BitVec.ofNat_toNat]
  · exact exec_primegen_found hlen hopw (attempt_drawn hbelow hdraw htest)
  · exact exec_primegen_again hlen hopw (attempt_drawn hbelow hdraw htest)
  · exact exec_primegen_error hlen hopw (attempt_drawn hbelow hdraw htest)

/-! ### PRIMEGEN in host-FIFO mode (R160) -/

/-- An end of PRIMEGEN in host-FIFO mode, in `t`, from `s`: a value of at most `len` bytes that passed the test of `k`
rounds in `Rd`, or an error with the registers as they were (R156, R160). -/
structure PrimegenEnd (rd : RegField) (len k : Nat) (s t : State) : Prop where
  idle : t.eng = .idle
  done : t.status.done = true
  outcome :
    (t.status.err = .ok ∧ ∃ v g, v < 256 ^ len ∧ millerRabin .fifo v k g = (.ok true, t.rng) ∧
      t.regs = (s.setReg (regIdx rd) v).regs) ∨
    (t.status.err ∈ [ErrCode.param, .domain, .exhausted, .rngempty] ∧ t.regs = s.regs)

/-- A step of PRIMEGEN in host-FIFO mode ends it, or only takes at least `len` bytes and counts. -/
theorem exec_primegen_fifo {s : State} (hsrc : s.lat.src = .fifo) (rd : RegField) (imm : BitVec 16) :
    ∃ t, exec (.primegen rd imm) s = .next t ∧
      (PrimegenEnd rd imm.toNat s.lat.k.toNat s t ∨
        (imm.toNat ≠ 0 ∧ ∃ g a, t = { s with rng := g, attempts := a } ∧
          g.queue.length + imm.toNat ≤ s.rng.queue.length)) := by
  rcases execPrimegen_cases rd imm s with ⟨-, e⟩ | ⟨hlen, -, ⟨err, s', ha, e⟩ | ⟨s', ha, e⟩ | ⟨c, s', ha, e⟩⟩ <;>
    refine ⟨_, e, ?_⟩
  · exact .inl ⟨rfl, rfl, .inr ⟨List.mem_cons_self, rfl⟩⟩
  · have hcode := attempt_error_code ha
    obtain ⟨g, a, -, rfl⟩ := attempt_next ha
    exact .inl ⟨rfl, rfl, .inr ⟨List.mem_cons_of_mem _ hcode, rfl⟩⟩
  · have hremoved := attempt_removes hsrc ha
    obtain ⟨g, a, -, rfl⟩ := attempt_next ha
    exact .inr ⟨hlen, g, a, rfl, hremoved⟩
  · obtain ⟨hlt, -, -⟩ := attempt_found ha
    obtain ⟨v, g, b, -, htest, hb⟩ := attempt_ok ha
    obtain ⟨rfl, rfl⟩ : b = true ∧ v = c := by
      cases b
      · cases hb
      · cases hb
        exact ⟨rfl, rfl⟩
    obtain ⟨g', a, -, rfl⟩ := attempt_next ha
    rw [hsrc] at htest
    exact .inl ⟨rfl, rfl, .inl ⟨rfl, v, g, hlt, htest, rfl⟩⟩

/-- Settles O44: by induction on the bytes left, each step ends the command or takes `len` of them. -/
theorem primegenEndsInFifoMode : Obligations.PrimegenEndsInFifoMode := by
  intro s c lat mic rd imm hturns heng hd hsrc
  suffices hend : ∃ n t, n ≤ s.rng.queue.length / imm.toNat + 1 ∧ steps n s = .next t ∧
      PrimegenEnd rd imm.toNat lat.k.toNat s t by
    obtain ⟨n, t, hn, hsteps, hidle, hdone, houtcome⟩ := hend
    exact ⟨n, t, hn, hsteps, hidle, hdone, houtcome⟩
  induction hq : s.rng.queue.length using Nat.strong_induction_on generalizing s with
  | _ q ih =>
    obtain ⟨t, hexec, hend⟩ := exec_primegen_fifo (s := s) (by rw [State.lat_of_eng heng, hsrc]) rd imm
    have hstep : step s = .next t := by rw [step_nil hturns, engineStep_ok heng hd, hexec]
    rw [State.lat_of_eng heng] at hend
    rcases hend with hend | ⟨hlen, g, a, rfl, hremoved⟩
    · exact ⟨1, t, Nat.le_add_left 1 _, steps_succ hstep 0, hend⟩
    · obtain ⟨n, t, hn, hsteps, hend⟩ := ih g.queue.length (by omega) { s with rng := g, attempts := a } hturns heng rfl
      have hdiv : g.queue.length / imm.toNat + 1 ≤ q / imm.toNat := by
        rw [← Nat.add_div_right _ (Nat.pos_of_ne_zero hlen)]
        exact Nat.div_le_div_right (hq ▸ hremoved)
      exact ⟨n + 1, t, Nat.succ_le_succ (hn.trans hdiv), (steps_succ hstep n).trans hsteps, { hend with }⟩

/-! ### KEYGEN -/

theorem primeLen_eq (imm : BitVec 16) : primeLen imm = imm.toNat / 16 := Nat.div_div_eq_div_mul ..

section
variable {s s' : State} {imm : BitVec 16} (hlen : imm.toNat / 16 ≠ 0) (hopw : 16 * (imm.toNat / 16) ≤ s.cfg.opw)
include hlen hopw

/-- With a legal length a step of KEYGEN is what its attempt leads to (R171). -/
theorem exec_keygen_error {e : CmdError} (ha : attempt (imm.toNat / 16) s = (.error e, s')) :
    exec (.keygen imm) s = .next (ended e.code false e.info s') := by
  rw [exec, execKeygen, primeLen_eq, if_neg (length_legal hlen hopw), ha]
  rfl

theorem exec_keygen_again (ha : attempt (imm.toNat / 16) s = (.ok none, s')) : exec (.keygen imm) s = .next s' := by
  rw [exec, execKeygen, primeLen_eq, if_neg (length_legal hlen hopw), ha]

end

/-- Settles O48: the attempt in each case, and what KEYGEN does with it. -/
theorem keygenAttemptThatFindsNothing : Obligations.KeygenAttemptThatFindsNothing := by
  intro s imm hlen hopw
  refine ⟨fun hrmax hle => exec_keygen_error hlen hopw (attempt_exhausted hrmax hle), fun hbelow =>
    ⟨fun hsrc hshort => ?_, fun c g hdraw => ⟨fun g' htest => ?_, fun e g' htest => ?_⟩⟩⟩
  · exact exec_keygen_error hlen hopw (attempt_short hbelow hsrc hshort)
  · exact exec_keygen_again hlen hopw (attempt_drawn hbelow hdraw htest)
  · exact exec_keygen_error hlen hopw (attempt_drawn hbelow hdraw htest)

end Sys2Proof.Machine

/-! # Key generation family

A found prime by the phase it is found in (R171), the key pair it can complete (R173, R174), and the run of KEYGEN in
host-FIFO mode, where each attempt takes bytes (R177). -/

namespace Sys2Proof.Machine

/-! ### The length (R172) -/

/-- Settles O46: the length check comes before the attempt. -/
theorem keygenRefusesTheLength : Obligations.KeygenRefusesTheLength := by
  intro s imm h
  rw [exec, execKeygen, primeLen_eq, if_pos h]
  rfl

theorem exec_keygen_found {s s' : State} {imm : BitVec 16} {c : Nat} (hlen : imm.toNat / 16 ≠ 0)
    (hopw : 16 * (imm.toNat / 16) ≤ s.cfg.opw) (ha : attempt (imm.toNat / 16) s = (.ok (some c), s')) :
    exec (.keygen imm) s = .next (keygenFound c s') := by
  rw [exec, execKeygen, primeLen_eq, if_neg (length_legal hlen hopw), ha]

/-! ### The key pair, by its primes -/

theorem keyPair_eq_none {p q : Nat} (h : p = q ∨ Nat.gcd eFixed ((p - 1) * (q - 1)) ≠ 1) : keyPair p q = none :=
  if_pos h.symm

/-- Two distinct candidates of at least 5 with `e` coprime to `phi` make a key pair, `d` the inverse of `e` (R171). -/
theorem keyPair_eq_some {p q : Nat} (hne : p ≠ q) (hp : 5 ≤ p) (hq : 5 ≤ q)
    (hgcd : Nat.gcd eFixed ((p - 1) * (q - 1)) = 1) :
    ∃ d, d < (p - 1) * (q - 1) ∧ eFixed * d % ((p - 1) * (q - 1)) = 1 ∧
      keyPair p q = some ⟨p, q, p * q, (p - 1) * (q - 1), eFixed, d⟩ := by
  have hphi := totient_ge hp hq
  refine ⟨modInverse eFixed ((p - 1) * (q - 1)), modInverse_lt _ (by omega), ?_,
    if_neg (not_or.mpr ⟨not_not.mpr hgcd, hne⟩)⟩
  rw [mul_modInverse_mod eFixed (by omega), hgcd, Nat.mod_eq_of_lt (by omega)]

/-! ### A found prime, by the phase -/

section
variable {s : State} {w : Word} {lat : Latch} {c p : Nat}

theorem keygenFound_genP (he : s.eng = .busy w lat .genP) :
    keygenFound c s = { s with eng := .busy w lat (.genQ c) } := by
  rw [keygenFound, State.mic_of_eng he]
  exact State.setMic_of_eng he _

theorem keygenFound_commits {k : KeyBank} (he : s.eng = .busy w lat (.genQ p)) (hk : keyPair p c = some k) :
    keygenFound c s = ended .ok false 0 { s with key := k, keyValid := true } := by
  rw [keygenFound, State.mic_of_eng he]
  simp only [hk]
  rfl

theorem keygenFound_regenerates (he : s.eng = .busy w lat (.genQ p)) (hk : keyPair p c = none) :
    keygenFound c s = { s with restarts := satInc s.restarts, eng := .busy w lat .genP } := by
  rw [keygenFound, State.mic_of_eng he]
  simp only [hk]
  exact State.setMic_of_eng (s := { s with restarts := satInc s.restarts }) he _

end

/-- Settles O47: the attempt finds `c`, and the phase with the key pair of `p` and `c` says what becomes of it. -/
theorem keygenMakesOneAttempt : Obligations.KeygenMakesOneAttempt := by
  intro s w lat mic imm c g g' hlen hopw heng hbelow hdraw htest
  obtain rfl := State.lat_of_eng heng
  have hstep := exec_keygen_found hlen hopw (attempt_drawn hbelow hdraw htest)
  refine ⟨?_, ?_, ?_⟩
  · rintro rfl
    exact hstep.trans (congrArg _ (keygenFound_genP heng))
  · rintro p rfl hne hp hgcd
    obtain ⟨d, hd, hinv, hk⟩ := keyPair_eq_some hne hp (millerRabin_true htest).2 hgcd
    exact ⟨d, hd, hinv, hstep.trans (congrArg _ (keygenFound_commits heng hk))⟩
  · rintro p rfl hnone
    exact hstep.trans (congrArg _ (keygenFound_regenerates heng (keyPair_eq_none hnone)))

/-! ### KEYGEN in host-FIFO mode (R177) -/

/-- An end of KEYGEN in host-FIFO mode, in `t`, from `s`: a key pair, or an error with the key bank as it was (R170). -/
structure KeygenEnd (s t : State) : Prop where
  idle : t.eng = .idle
  done : t.status.done = true
  outcome :
    (t.status.err = .ok ∧ t.keyValid = true) ∨
    (t.status.err ∈ [ErrCode.param, .domain, .exhausted, .rngempty] ∧ t.key = s.key ∧ t.keyValid = s.keyValid)

/-- In `t` the KEYGEN running in `s`, of `len` bytes per prime, goes on, in any phase, with at least `len` bytes taken
and the key bank as it was. -/
structure KeygenGoesOn (w : Word) (lat : Latch) (len : Nat) (s t : State) : Prop where
  eng : ∃ mic, t.eng = .busy w lat mic
  turns : t.turns = s.turns
  key : t.key = s.key
  keyValid : t.keyValid = s.keyValid
  removed : t.rng.queue.length + len ≤ s.rng.queue.length

section
variable {s t u : State} {w : Word} {lat : Latch} {mic : Mic} {len : Nat}

/-- The end of a KEYGEN that went on is the end of the whole. -/
theorem KeygenEnd.of_goesOn (h : KeygenGoesOn w lat len s t) (hend : KeygenEnd t u) : KeygenEnd s u :=
  { hend with outcome := by rw [← h.key, ← h.keyValid]; exact hend.outcome }

/-- A found prime is kept, or ends KEYGEN with a key pair, or is given up for a regeneration (R171, R173). -/
theorem keygenFound_end_or_goesOn (hsrc : lat.src = .fifo) (heng : s.eng = .busy w lat mic) {c : Nat}
    (ha : attempt len s = (.ok (some c), t)) :
    KeygenEnd s (keygenFound c t) ∨ KeygenGoesOn w lat len s (keygenFound c t) := by
  have hremoved := attempt_removes (by rw [State.lat_of_eng heng, hsrc]) ha
  obtain ⟨g, a, -, rfl⟩ := attempt_next ha
  rcases keygenFound_cases c (s := { s with rng := g, attempts := a }) heng with
    ⟨-, e⟩ | ⟨p, k, -, -, e⟩ | ⟨p, -, -, e⟩ <;> rw [e]
  · exact .inr ⟨⟨_, rfl⟩, rfl, rfl, rfl, hremoved⟩
  · exact .inl ⟨rfl, rfl, .inl ⟨rfl, rfl⟩⟩
  · exact .inr ⟨⟨_, rfl⟩, rfl, rfl, rfl, hremoved⟩

/-- A step of KEYGEN in host-FIFO mode ends it, or it goes on with fewer bytes. -/
theorem exec_keygen_fifo (hsrc : lat.src = .fifo) (heng : s.eng = .busy w lat mic) (imm : BitVec 16) :
    ∃ t, exec (.keygen imm) s = .next t ∧
      (KeygenEnd s t ∨ (imm.toNat / 16 ≠ 0 ∧ KeygenGoesOn w lat (imm.toNat / 16) s t)) := by
  rw [← primeLen_eq]
  rcases execKeygen_cases imm s with ⟨-, e⟩ | ⟨hlen, -, ⟨err, s', ha, e⟩ | ⟨s', ha, e⟩ | ⟨c, s', ha, e⟩⟩ <;>
    refine ⟨_, e, ?_⟩
  · exact .inl ⟨rfl, rfl, .inr ⟨List.mem_cons_self, rfl, rfl⟩⟩
  · have hcode := attempt_error_code ha
    obtain ⟨g, a, -, rfl⟩ := attempt_next ha
    exact .inl ⟨rfl, rfl, .inr ⟨List.mem_cons_of_mem _ hcode, rfl, rfl⟩⟩
  · have hremoved := attempt_removes (by rw [State.lat_of_eng heng, hsrc]) ha
    obtain ⟨g, a, -, rfl⟩ := attempt_next ha
    exact .inr ⟨hlen, ⟨_, heng⟩, rfl, rfl, rfl, hremoved⟩
  · exact (keygenFound_end_or_goesOn hsrc heng ha).imp_right fun h => ⟨hlen, h⟩

end

/-- Settles O49: by induction on the bytes left, each step ends the command or takes `len` of them. -/
theorem keygenEndsInFifoMode : Obligations.KeygenEndsInFifoMode := by
  intro s c lat mic imm hturns heng hd hsrc
  suffices hend : ∃ n t, n ≤ s.rng.queue.length / (imm.toNat / 16) + 1 ∧ steps n s = .next t ∧ KeygenEnd s t by
    obtain ⟨n, t, hn, hsteps, hidle, hdone, houtcome⟩ := hend
    exact ⟨n, t, hn, hsteps, hidle, hdone, houtcome⟩
  induction hq : s.rng.queue.length using Nat.strong_induction_on generalizing s mic with
  | _ q ih =>
    subst hq
    obtain ⟨t, hexec, hend⟩ := exec_keygen_fifo hsrc heng imm
    have hstep : step s = .next t := by rw [step_nil hturns, engineStep_ok heng hd, hexec]
    rcases hend with hend | ⟨hlen, hon⟩
    · exact ⟨1, t, Nat.le_add_left 1 _, steps_succ hstep 0, hend⟩
    · obtain ⟨mic', heng'⟩ := hon.eng
      have hremoved := hon.removed
      obtain ⟨n, u, hn, hsteps, hend⟩ := ih _ (by omega) t mic' (hon.turns.trans hturns) heng' rfl
      have hdiv : t.rng.queue.length / (imm.toNat / 16) + 1 ≤ s.rng.queue.length / (imm.toNat / 16) := by
        rw [← Nat.add_div_right _ (Nat.pos_of_ne_zero hlen)]
        exact Nat.div_le_div_right hremoved
      exact ⟨n + 1, u, Nat.succ_le_succ (hn.trans hdiv), (steps_succ hstep n).trans hsteps, .of_goesOn hon hend⟩

end Sys2Proof.Machine

/-! # Transform family

ENCRYPT and DECRYPT complete in one step with NOKEY, RANGE or the power (R190 to R192, R195), and the power to `KP.D`
undoes the one to `KP.E` (R197). -/

namespace Sys2Proof.Machine

/-! ### The steps of the commands -/

/-- The completion of the transform of `x` with exponent `e` into register `i`: NOKEY, then RANGE, else the power. -/
theorem complete_transform (s : State) (x e : Nat) (i : Fin 8) :
    (s.keyValid = false → s.complete ((transformValue s x e).map (.reg i)) = ended .nokey false 0 s) ∧
    (s.keyValid = true → s.lat.rchk = true → s.key.n ≤ x →
      s.complete ((transformValue s x e).map (.reg i)) = ended .range false 0 s) ∧
    (s.keyValid = true → s.key.Valid → (s.lat.rchk = false ∨ x < s.key.n) →
      s.complete ((transformValue s x e).map (.reg i)) =
        ended .ok false 0 { s with regs := s.regs.set i (x ^ e % s.key.n) }) := by
  rcases transformValue_cases s x e with ⟨hk, hval⟩ | ⟨hk, hrchk, hle, hval⟩ | ⟨hk, hin, hval⟩ <;> rw [hval]
  · exact ⟨fun _ => complete_reg_error .., by simp [hk], by simp [hk]⟩
  · exact ⟨by simp [hk], fun _ _ _ => complete_reg_error .., by simp [hrchk, hle]⟩
  · refine ⟨by simp [hk], fun _ hrchk hle => ?_, fun _ hvalid _ => ?_⟩
    · exact absurd hin (by simp [hrchk, hle])
    · rw [complete_reg_ok, modExp_eq_pow_mod x e hvalid.n_pos]

/-- Settles O51: the three cases of the transform, `KP.E` being 65537. -/
theorem encryptWritesThePower : Obligations.EncryptWritesThePower := by
  intro s rd ra
  rw [exec, execEncrypt_eq]
  obtain ⟨hnokey, hrange, hpower⟩ := complete_transform s (s.operand ra) s.key.e (regIdx rd)
  refine ⟨fun h => congrArg _ (hnokey h), fun h hc hle => congrArg _ (hrange h hc hle), fun h hvalid hin => ?_⟩
  rw [hpower h hvalid hin, hvalid.exponent, eFixed]

/-- Settles O52: the three cases of the transform, with the exponent `KP.D`. -/
theorem decryptWritesThePower : Obligations.DecryptWritesThePower := by
  intro s rd ra
  rw [exec, execDecrypt_eq]
  obtain ⟨hnokey, hrange, hpower⟩ := complete_transform s (s.operand ra) s.key.d (regIdx rd)
  exact ⟨fun h => congrArg _ (hnokey h), fun h hc hle => congrArg _ (hrange h hc hle),
    fun h hvalid hin => congrArg _ (hpower h hvalid hin)⟩

/-! ### The round trip (R197) -/

/-- Modulo a prime, an exponent that is 1 modulo `p - 1` gives every base back, 0 included (Fermat). -/
theorem pow_modEq_self {p k : Nat} (hp : Nat.Prime p) (hk : 0 < k) (hdvd : p - 1 ∣ k - 1) (m : Nat) :
    m ^ k ≡ m [MOD p] := by
  have h := Int.ModEq.pow_eq_pow hp hdvd hk one_pos m
  rw [pow_one] at h
  exact_mod_cast h

/-- The exponents of a valid key pair undo each other on every value below the modulus, also on one that shares a prime
with it: `e * d` is 1 modulo `p - 1` and modulo `q - 1`. -/
theorem KeyBank.Valid.pow_pow_mod {k : KeyBank} (h : k.Valid) (hp : Nat.Prime k.p) (hq : Nat.Prime k.q) {m : Nat}
    (hm : m < k.n) : (m ^ k.e % k.n) ^ k.d % k.n = m := by
  have hpos : 0 < k.e * k.d := Nat.pos_of_ne_zero fun h0 => by simpa [h0] using h.inverse
  have hphi : (k.p - 1) * (k.q - 1) ∣ k.e * k.d - 1 := by
    rw [← h.totient]
    simpa only [h.inverse] using Nat.dvd_sub_mod (n := k.phi) (k.e * k.d)
  have hmod : m ^ (k.e * k.d) ≡ m [MOD k.n] := by
    rw [h.modulus, ← Nat.modEq_and_modEq_iff_modEq_mul ((Nat.coprime_primes hp hq).mpr h.distinct)]
    exact ⟨pow_modEq_self hp hpos (dvd_of_mul_right_dvd hphi) m, pow_modEq_self hq hpos (dvd_of_mul_left_dvd hphi) m⟩
  rw [← Nat.pow_mod, ← pow_mul]
  exact Nat.mod_eq_of_modEq hmod hm

/-- A register operand read back after the end of a command that wrote it. -/
theorem operand_ended_set (s : State) (r : RegField) (v : Nat) (code : ErrCode) (res : Bool) (info : Word) :
    (ended code res info { s with regs := s.regs.set (regIdx r) v }).operand r = v :=
  Vector.getElem_set_self _

/-- ENCRYPT of a value below `KP.N` leaves its power to `KP.E` in `Rd`, and the key pair as it was. -/
theorem exec_encrypt_below {s : State} (rd : RegField) {ra : RegField} (hkey : s.keyValid = true) (hvalid : s.key.Valid)
    (hm : s.operand ra < s.key.n) :
    ∃ t, exec (.encrypt rd ra) s = .next t ∧ t.status.err = .ok ∧ t.keyValid = true ∧ t.key = s.key ∧
      t.operand rd = s.operand ra ^ s.key.e % s.key.n := by
  obtain ⟨-, -, hpower⟩ := encryptWritesThePower s rd ra
  refine ⟨_, hpower hkey hvalid (.inr hm), rfl, hkey, rfl, ?_⟩
  rw [operand_ended_set, hvalid.exponent, eFixed]

/-- Settles O53: ENCRYPT leaves `m ^ e mod n` in `Rd`, below `KP.N`, and its power to `KP.D` is `m`. -/
theorem decryptUndoesEncrypt : Obligations.DecryptUndoesEncrypt := by
  intro s rd ra rd' hkey hvalid hp hq hm
  obtain ⟨t, hencrypt, hok, hkeyt, ht, hcipher⟩ := exec_encrypt_below rd hkey hvalid hm
  have hbelow : t.operand rd < t.key.n := by
    rw [hcipher, ht]
    exact Nat.mod_lt _ hvalid.n_pos
  have hplain : t.operand rd ^ t.key.d % t.key.n = s.operand ra := by
    rw [hcipher, ht]
    exact hvalid.pow_pow_mod hp hq hm
  obtain ⟨-, -, hdecrypt⟩ := decryptWritesThePower (t.accept (encode (.decrypt rd' rd))) rd' rd
  refine ⟨t, _, hencrypt, hok, hdecrypt hkeyt (ht ▸ hvalid) (.inr hbelow), rfl, ?_⟩
  rw [operand_ended_set]
  exact hplain

end Sys2Proof.Machine

/-! # Control family: the life of a command

The accept of a word (R211, R212), the engine's turn (R213), and the one way a command's step comes out: it works on the
sources, the counters and the microstate, and then it goes on running, or completes with a commit, or takes an error
(R214 to R217). -/

namespace Sys2Proof.Machine

/-! ### The engine's turn (R213, R255) -/

/-- Settles O6: the engine's turn is `engineStep`, with a turn in the list and with none. -/
theorem engineStepRunsTheDecodedCommand : Obligations.EngineStepRunsTheDecodedCommand := by
  intro s
  refine ⟨fun c lat mic i heng hd => ⟨fun rest => ?_, fun hnil => ?_⟩, fun hidle => ⟨fun rest => ?_, fun hnil => ?_⟩⟩
  · rw [step_engine, engineStep_ok (s := { s with turns := rest }) heng hd]
  · rw [step_nil hnil, engineStep_ok heng hd]
  · rw [step_engine, engineStep_idle (s := { s with turns := rest }) hidle]
  · rw [step_nil hnil, engineStep_idle hidle]

/-- A word the probe reads a command from decodes to it: its bits above `nbits` are 0 (R90). -/
theorem decode_of_decodeTableWord {nbits w : Nat} {i : Instr} (h : decodeTableWord nbits w = some i) :
    decode (BitVec.ofNat 32 (w % 2 ^ nbits)) = .ok i := by
  unfold decodeTableWord at h
  split at h
  · cases hd : decode (BitVec.ofNat 32 (w % 2 ^ nbits)) with
    | ok j => rw [hd] at h; cases h; rfl
    | error e => rw [hd] at h; cases h
  · cases h

/-- Settles O7: the accept leaves the word running, and the turn put first is the engine's. -/
theorem loadedWordRunsNext : Obligations.LoadedWordRunsNext := by
  intro s nbits w i h
  rw [State.withFetchWord, loadCommand, step_engine]
  exact engineStep_ok (State.accept_eng ..) (decode_of_decodeTableWord h)

/-! ### The write to `CMD` (R211, R212) -/

theorem writeCmd_idle {s : State} (h : s.eng = .idle) (c : Word) : s.writeCmd c = s.accept c := by
  rw [State.writeCmd, s.busy_eq_false_iff.mpr h, if_neg Bool.false_ne_true]

theorem writeCmd_busy {s : State} (h : s.eng ≠ .idle) (c : Word) :
    s.writeCmd c = { s with status := { s.status with ovr := true } } := by
  rw [State.writeCmd, if_pos (s.busy_iff.mpr h)]

/-- A host write to `CMD` reaches `State.writeCmd` (R64). -/
theorem step_write_cmd (s : State) (c : Word) (rest : List Turn) :
    step { s with turns := .host (.write (s.cfg.base + 0x00C) 4 c) :: rest } =
      .next { ({ s with turns := rest } : State).writeCmd c with resp := some .accepted } :=
  step_write_slot s (off := 0x00C) (sl := .cmd) (by decide) rfl rfl rfl c rest

/-- Settles O9: the write is `State.accept`, field by field. -/
theorem commandIsAcceptedWhenIdle : Obligations.CommandIsAcceptedWhenIdle := by
  intro s c rest hidle
  rw [step_write_cmd, writeCmd_idle (s := { s with turns := rest }) hidle, Bool.or_comm]
  rfl

/-- Settles O10: the write only sets OVR. -/
theorem commandWhileBusyIsDropped : Obligations.CommandWhileBusyIsDropped := by
  intro s c rest hbusy
  rw [step_write_cmd, writeCmd_busy (s := { s with turns := rest }) hbusy]

/-! ### Completions (R215, R216) -/

theorem State.complete_done (s : State) (x : Except CmdError Commit) : (s.complete x).status.done = true := by
  cases x <;> rfl

/-- With DONE set the interrupt is the level of IE (R240). -/
theorem irq_eq_ie_of_done {s : State} (h : s.status.done = true) : s.irq = s.ctrl.ie := by
  rw [State.irq, h, Bool.and_true]

/-- Settles O54: NOP completes with an empty commit. -/
theorem nopOnlyCompletes : Obligations.NopOnlyCompletes := by
  intro s
  rw [exec, execNop, State.complete_ok, State.commit_nothing, finish_eq_ended, Commit.res_nothing]

/-! ### What a command may complete with (R215, R231) -/

/-- An outcome the command `i` may complete with: an error is one of the codes that are no `OK` (R231), and `RESULT` is
MRTEST's alone (R215). -/
structure CompletesWith (i : Instr) (x : Except CmdError Commit) : Prop where
  error_code : ∀ e, x = .error e → e.code ≠ .ok
  result : ∀ c, x = .ok c → c.res = true → ∃ ra, i = .mrtest ra

section
variable {i : Instr}

theorem CompletesWith.of_error {e : CmdError} (h : e.code ≠ .ok) : CompletesWith i (.error e) where
  error_code := by rintro _ ⟨⟩; exact h
  result := by rintro _ ⟨⟩

theorem CompletesWith.of_commit {c : Commit} (h : c.res = false) : CompletesWith i (.ok c) where
  error_code := by rintro _ ⟨⟩
  result := by
    rintro _ ⟨⟩ htrue
    rw [h] at htrue
    cases htrue

/-- A value for a register, or the error of its function. -/
theorem CompletesWith.of_value {x : Except CmdError Nat} (h : ∀ e, x = .error e → e.code ≠ .ok) (r : Fin 8) :
    CompletesWith i (x.map (.reg r)) := by
  cases x with
  | ok v => exact .of_commit rfl
  | error e => exact .of_error (h e rfl)

end

theorem modexpValue_error_ne_ok {a b m : Nat} {e : CmdError} (h : modexpValue a b m = .error e) : e.code ≠ .ok := by
  rcases modexpValue_cases a b m with ⟨-, e'⟩ | ⟨-, e'⟩ <;> (rw [e'] at h; cases h)
  simp

theorem modinvValue_error_ne_ok {a m : Nat} {e : CmdError} (h : modinvValue a m = .error e) : e.code ≠ .ok := by
  rcases modinvValue_cases a m with ⟨-, e'⟩ | ⟨-, -, e'⟩ | ⟨-, -, e'⟩ <;>
    (rw [e'] at h; cases h)
  · simp
  · simp

theorem transformValue_error_ne_ok {s : State} {x k : Nat} {e : CmdError} (h : transformValue s x k = .error e) :
    e.code ≠ .ok := by
  rcases transformValue_cases s x k with ⟨-, e'⟩ | ⟨-, -, -, e'⟩ | ⟨-, -, e'⟩ <;> (rw [e'] at h; cases h)
  · simp
  · simp

theorem millerRabin_error_ne_ok {src : RngSrc} {n k : Nat} {g g' : Rng} {e : CmdError}
    (h : millerRabin src n k g = (.error e, g')) : e.code ≠ .ok := by
  rcases millerRabin_error h with hcode | hcode <;> simp [hcode]

theorem attempt_error_ne_ok {len : Nat} {s s' : State} {e : CmdError} (h : attempt len s = (.error e, s')) :
    e.code ≠ .ok := by
  intro hok
  have hcode := attempt_error_code h
  simp [hok] at hcode

/-! ### How a step of a command comes out (R213, R214) -/

/-- Nothing is committed between `s` and `t`: the registers, the key bank and STATUS are as they were (R214). -/
structure Uncommitted (s t : State) : Prop where
  regs : t.regs = s.regs
  key : t.key = s.key
  keyValid : t.keyValid = s.keyValid
  status : t.status = s.status

theorem Uncommitted.refl (s : State) : Uncommitted s s := ⟨rfl, rfl, rfl, rfl⟩

theorem Uncommitted.attempt {len : Nat} {s s' : State} {r : Except CmdError (Option Nat)}
    (h : attempt len s = (r, s')) : Uncommitted s s' ∧ s'.eng = s.eng := by
  obtain ⟨g, a, -, rfl⟩ := attempt_next h
  exact ⟨⟨rfl, rfl, rfl, rfl⟩, rfl⟩

/-- Everything a step of the command `i` can come to from `s`: it goes on with nothing committed, or completes. -/
inductive StepsTo (i : Instr) (s : State) : State → Prop where
  | goesOn {t : State} (hwork : Uncommitted s t) (hbusy : t.eng ≠ .idle) : StepsTo i s t
  | completes {u : State} {x : Except CmdError Commit} (hwork : Uncommitted s u) (hx : CompletesWith i x) :
    StepsTo i s (u.complete x)

/-- A command of one step completes, whatever the state (R217). -/
theorem exec_of_oneStep {i : Instr} (hi : oneStep i = true) (s : State) :
    ∃ u x, exec i s = .next (u.complete x) ∧ Uncommitted s u ∧ CompletesWith i x := by
  cases i with
  | primegen | keygen => cases hi
  | nop => exact ⟨s, _, rfl, .refl s, .of_commit rfl⟩
  | modexp rd ra rb rc => exact ⟨s, _, rfl, .refl s, .of_value (fun _ => modexpValue_error_ne_ok) _⟩
  | modinv rd ra rb => exact ⟨s, _, rfl, .refl s, .of_value (fun _ => modinvValue_error_ne_ok) _⟩
  | gcd rd ra rb => exact ⟨s, _, rfl, .refl s, .of_commit rfl⟩
  | mrtest ra =>
    rcases execMrtest_cases ra s with ⟨b, g, -, e⟩ | ⟨err, g, htest, e⟩
    · exact ⟨{ s with rng := g }, .ok (.result b), e, ⟨rfl, rfl, rfl, rfl⟩, nofun, fun _ _ _ => ⟨ra, rfl⟩⟩
    · exact ⟨{ s with rng := g }, .error err, e, ⟨rfl, rfl, rfl, rfl⟩, .of_error (millerRabin_error_ne_ok htest)⟩
  | encrypt rd ra => exact ⟨s, _, rfl, .refl s, .of_value (fun _ => transformValue_error_ne_ok) _⟩
  | decrypt rd ra => exact ⟨s, _, rfl, .refl s, .of_value (fun _ => transformValue_error_ne_ok) _⟩

section
variable {s t : State}

theorem execPrimegen_stepsTo {rd : RegField} {imm : BitVec 16} (hbusy : s.eng ≠ .idle)
    (h : execPrimegen rd imm s = .next t) : StepsTo (.primegen rd imm) s t := by
  rcases execPrimegen_cases rd imm s with ⟨-, e⟩ | ⟨-, -, ⟨err, s', ha, e⟩ | ⟨s', ha, e⟩ | ⟨c, s', ha, e⟩⟩ <;>
    (rw [e] at h; cases h)
  · exact .completes (.refl s) (.of_error (by simp))
  · exact .completes (Uncommitted.attempt ha).1 (.of_error (attempt_error_ne_ok ha))
  · obtain ⟨hwork, heng⟩ := Uncommitted.attempt ha
    exact .goesOn hwork (heng ▸ hbusy)
  · exact .completes (x := .ok (.reg (regIdx rd) c)) (Uncommitted.attempt ha).1 (.of_commit rfl)

/-- A found prime is KEYGEN's `p`, or its `q`, which makes a key pair to commit or a return to phase `GenP` (R171). -/
theorem keygenFound_stepsTo {i : Instr} {u : State} (hwork : Uncommitted s u) (hbusy : u.eng ≠ .idle) (c : Nat) :
    StepsTo i s (keygenFound c u) := by
  cases heng : u.eng with
  | idle => exact absurd heng hbusy
  | busy w lat mic =>
    rcases keygenFound_cases c heng with ⟨-, e⟩ | ⟨p, k, -, -, e⟩ | ⟨p, -, -, e⟩ <;> rw [e]
    · exact .goesOn { hwork with } nofun
    · exact .completes (x := .ok (.keyPair k)) hwork (.of_commit rfl)
    · exact .goesOn { hwork with } nofun

theorem execKeygen_stepsTo {imm : BitVec 16} (hbusy : s.eng ≠ .idle) (h : execKeygen imm s = .next t) :
    StepsTo (.keygen imm) s t := by
  rcases execKeygen_cases imm s with ⟨-, e⟩ | ⟨-, -, ⟨err, s', ha, e⟩ | ⟨s', ha, e⟩ | ⟨c, s', ha, e⟩⟩ <;>
    (rw [e] at h; cases h)
  · exact .completes (.refl s) (.of_error (by simp))
  · exact .completes (Uncommitted.attempt ha).1 (.of_error (attempt_error_ne_ok ha))
  · obtain ⟨hwork, heng⟩ := Uncommitted.attempt ha
    exact .goesOn hwork (heng ▸ hbusy)
  · obtain ⟨hwork, heng⟩ := Uncommitted.attempt ha
    exact keygenFound_stepsTo hwork (heng ▸ hbusy) c

/-- A step of a running command goes on with nothing committed, or completes (R214, R215). -/
theorem exec_stepsTo {i : Instr} (hbusy : s.eng ≠ .idle) (h : exec i s = .next t) : StepsTo i s t := by
  cases hi : oneStep i with
  | true =>
    obtain ⟨u, x, e, hwork, hx⟩ := exec_of_oneStep hi s
    rw [e] at h
    cases h
    exact .completes hwork hx
  | false =>
    cases i with
    | primegen rd imm => exact execPrimegen_stepsTo hbusy h
    | keygen imm => exact execKeygen_stepsTo hbusy h
    | _ => cases hi

end

/-! ### The obligations -/

/-- Settles O14: of the ways a step comes out, only the completion without error commits. -/
theorem nothingIsCommittedWithoutSuccess : Obligations.NothingIsCommittedWithoutSuccess := by
  intro i s t hbusy h hfail
  cases exec_stepsTo hbusy h with
  | goesOn hwork hbusy' =>
    exact ⟨hwork.regs, hwork.key, hwork.keyValid, fun _ => hwork.status, fun hidle => absurd hidle hbusy'⟩
  | @completes u x hwork hx =>
    cases x with
    | ok c => exact hfail.elim (absurd rfl) (absurd rfl)
    | error e => exact ⟨hwork.regs, hwork.key, hwork.keyValid, fun hne => absurd rfl hne, fun _ => rfl⟩

/-- Settles O15: the one step of such a command is a completion. -/
theorem oneStepCommandsCompleteAtOnce : Obligations.OneStepCommandsCompleteAtOnce := by
  intro i s hi
  obtain ⟨u, x, e, -, -⟩ := exec_of_oneStep hi s
  exact ⟨_, e, u.complete_eng x, u.complete_done x⟩

/-- Settles O16: a step that leaves the engine idle is a completion, with a commit or with an error. -/
theorem completionSignalsDone : Obligations.CompletionSignalsDone := by
  intro i s t hbusy h hidle
  have hctrl := (exec_frame h).settings.ctrl
  cases exec_stepsTo hbusy h with
  | goesOn hwork hbusy' => exact absurd hidle hbusy'
  | @completes u x hwork hx =>
    have hdone := u.complete_done x
    refine ⟨hdone, (irq_eq_ie_of_done hdone).trans (congrArg Ctrl.ie hctrl), ?_⟩
    cases x with
    | ok c => exact ⟨fun hres => ⟨rfl, hx.result c rfl hres⟩, fun _ => rfl⟩
    | error e => exact ⟨nofun, fun hok => absurd hok (hx.error_code e rfl)⟩

end Sys2Proof.Machine

/-! # Exceptions family: errors are completions, and a bus error is an answer

Nothing the block does stops a run (R230, R235). `step_next_or_outsideWindow` says once what a step comes to: a next state
under the same parameters, with the first turn taken out; or the stop at a host turn outside the window
(notes/assumptions/5.md). -/

namespace Sys2Proof.Machine

/-! ### A word that is no command (R233) -/

/-- Settles O8: the engine raises ILLEGAL with the word, and a raise writes nothing but the completion fields. -/
theorem illegalWordEndsIllegal : Obligations.IllegalWordEndsIllegal := by
  intro s c lat mic e rest heng hd
  rw [step_engine, engineStep_illegal (s := { s with turns := rest }) heng hd, raise_eq_ended, illegalError]

/-! ### What stops a run (R61, R230, R235) -/

/-- The engine leaves the parameters and the turns to come. -/
theorem engineStep_cfg_turns {s t : State} (h : engineStep s = .next t) : t.cfg = s.cfg ∧ t.turns = s.turns := by
  rcases engineStep_cases s with ⟨-, e⟩ | ⟨_, _, _, i, -, -, e⟩ | ⟨_, _, _, _, -, -, e⟩ <;> rw [e] at h
  · cases h
    exact ⟨rfl, rfl⟩
  · have frame := exec_frame h
    exact ⟨frame.settings.cfg, frame.settings.turns⟩
  · cases h
    exact ⟨rfl, rfl⟩

/-- A host's access leaves the parameters and the turns to come. -/
theorem access_cfg_turns (s : State) (off : Nat) (a : Access) :
    (s.access off a).cfg = s.cfg ∧ (s.access off a).turns = s.turns := by
  obtain ⟨r, e | ⟨sl, v, -, -, -, e⟩⟩ := access_cases s off a <;> rw [e]
  · exact ⟨rfl, rfl⟩
  · obtain ⟨-, -, hcfg, hturns, -⟩ := writeSlot_keeps s v sl
    exact ⟨hcfg, hturns⟩

/-- Everything a step can come to: the engine, an access inside the window and reset answer a next state; a host turn
outside the window stops. -/
theorem step_next_or_outsideWindow (s : State) :
    (∃ t, step s = .next t ∧ t.cfg = s.cfg ∧ t.turns = s.turns.tail) ∨
    (∃ a rest, s.turns = .host a :: rest ∧ (a.addr < s.cfg.base ∨ s.cfg.base + 0x3000 ≤ a.addr) ∧
      step s = .fault (.outsideWindow a.addr)) := by
  rcases step_cases s with ⟨ht, e⟩ | ⟨rest, ht, e⟩ | ⟨a, rest, ht, e⟩ | ⟨rest, ht, e⟩ <;> rw [e, ht]
  · obtain ⟨t, h⟩ := engineStep_next s
    obtain ⟨hcfg, hturns⟩ := engineStep_cfg_turns h
    exact .inl ⟨t, h, hcfg, hturns.trans ht⟩
  · obtain ⟨t, h⟩ := engineStep_next { s with turns := rest }
    exact .inl ⟨t, h, engineStep_cfg_turns h⟩
  · rcases hostStep_cases a { s with turns := rest } with ⟨off, -, -, h⟩ | ⟨hout, h⟩
    · exact .inl ⟨_, h, access_cfg_turns ..⟩
    · exact .inr ⟨a, rest, rfl, hout, h⟩
  · exact .inl ⟨_, rfl, rfl, rfl⟩

/-- Turns are only ever taken out, so a state after a safe one is safe. -/
theorem State.Safe.of_tail {s t : State} (h : s.Safe) (hcfg : t.cfg = s.cfg) (hturns : t.turns = s.turns.tail) :
    t.Safe := by
  intro a ha
  rw [hturns] at ha
  rw [hcfg]
  exact h a (List.mem_of_mem_tail ha)

/-- Settles O17: a safe state has no turn outside the window, and only such a turn stops. -/
theorem onlyAnAccessOutsideTheWindowStops : Obligations.OnlyAnAccessOutsideTheWindowStops := by
  intro s
  rcases step_next_or_outsideWindow s with ⟨t, e, hcfg, hturns⟩ | ⟨a, rest, ht, hout, e⟩ <;> rw [e]
  · exact ⟨fun hsafe => ⟨t, rfl, hsafe.of_tail hcfg hturns⟩, nofun, nofun⟩
  · refine ⟨fun hsafe => ?_, fun f hf => ?_, nofun⟩
    · have hin := hsafe a (ht ▸ List.mem_cons_self)
      omega
    · cases hf
      exact ⟨a, rest, ht, rfl⟩

end Sys2Proof.Machine

/-! # Reset and hazards family: a host write while a command runs

Of the writes R281 names, those of `CMD` and `RNG_DATA` are settled by `commandWhileBusyIsDropped` and `randomFifoPush`;
the rules of the others follow here. -/

namespace Sys2Proof.Machine

/-- A write of `CTRL` while busy: RNGFLUSH sets WERR and leaves the queue (R28, R281). -/
theorem writeCtrl_busy {s : State} (h : s.eng ≠ .idle) (v : Word) :
    s.writeCtrl v =
      { s with
        ctrl := ⟨v.getLsbD 0, if v.getLsbD 1 then .fifo else .trng, v.getLsbD 2⟩
        status := { s.status with werr := s.status.werr || v.getLsbD 3 } } := by
  have hb := s.busy_iff.mpr h
  unfold State.writeCtrl RngSrc.ofBit State.setWerr
  cases v.getLsbD 3 <;> simp [hb]

/-- A write of a word of a big register while busy (R66). -/
theorem writeBig_busy {s : State} (h : s.eng ≠ .idle) (i : Fin 8) (j : Nat) (v : Word) :
    s.writeBig i j v = s.setWerr := by
  rw [State.writeBig, if_pos (s.busy_iff.mpr h)]

/-- A host write of a word of a big register reaches `State.writeBig` (R66). -/
theorem step_write_big (s : State) (hwf : s.cfg.wf = true) (i : Fin 8) {j : Nat} (hj : j < s.cfg.words) (v : Word)
    (rest : List Turn) :
    step { s with turns := .host (.write (s.cfg.base + (0x1000 + 0x200 * i.val + 4 * j)) 4 v) :: rest } =
      .next { ({ s with turns := rest } : State).writeBig i j v with resp := some .accepted } := by
  have hi := i.isLt
  have hwords := Params.words_le hwf
  exact step_write_slot s (by omega) (by omega) (slotAt_big hwf i hj) rfl v rest

/-- Settles O11: each write reaches its register, whose rule while busy says what changes. -/
theorem writesWhileBusy : Obligations.WritesWhileBusy := by
  intro s v rest
  obtain ⟨-, -, hpush⟩ := randomFifoPush s v rest
  refine ⟨step_write_slot s (sl := .mrRounds) (by decide) rfl rfl rfl v rest,
    step_write_slot s (sl := .retryMax) (by decide) rfl rfl rfl v rest,
    fun hbusy => ⟨fun i j hj hwf => ?_, hpush hbusy, ?_, commandWhileBusyIsDropped s v rest hbusy⟩⟩
  · rw [step_write_big s hwf i hj, writeBig_busy (s := { s with turns := rest }) hbusy, State.setWerr]
  · rw [step_write_slot s (off := 0x004) (sl := .ctrl) (by decide) rfl rfl rfl v, State.writeSlot,
      writeCtrl_busy (s := { s with turns := rest }) hbusy]

end Sys2Proof.Machine
